-- ==== Sys2Proof/Word.lean ====
section
/-! DEFINITION. The words of the machine: the 64-bit command, the 32-bit response, and the spec's bit vectors. -/

namespace Sys2Proof

/-- A command word (`30_encoding.md` R60, `00_scope.md` R11 CMD_BITS). -/
abbrev CmdWord := BitVec 64

/-- The contents of the response register (`10_state.md` R22, `00_scope.md` R11 RESP_BITS). -/
abbrev RespWord := BitVec 32

/-- A bit vector of the spec (`00_scope.md` R8): an ordered sequence of bits whose length depends on the context.
The head of the list is position 1, the leftmost element. `60_exceptions.md` R185: there is no third bit value. -/
abbrev Bits := List Bool

end Sys2Proof
end

