-- ==== Sys2Proof/Syntax.lean ====
section
/-! DEFINITION. The eighteen operations with their operand slots, one constructor per row of the opcode table. -/

namespace Sys2Proof

/-- An operand slot as it stands in a command word: a length tag of `t` bits and a field of `w` bits
(`30_encoding.md` R60). The tag may exceed the width and the field may have bits above the tag: such a slot is
ill-formed (R65), and executing the command says so. -/
structure Slot (t w : Nat) where
  len : BitVec t
  field : BitVec w
deriving DecidableEq, Repr

/-- The KEY slot: KLEN and KEY (`30_encoding.md` R60). -/
abbrev KeySlot := Slot 5 20

/-- The DATA slot: DLEN and DATA (`30_encoding.md` R60). -/
abbrev DataSlot := Slot 4 10

/-- The AUX slot: ALEN and AUX (`30_encoding.md` R60). -/
abbrev AuxSlot := Slot 4 10

/-- The operations of `30_encoding.md` R62, each with the parts of the word it uses (R63). -/
inductive Instr where
  | permP10 (data : DataSlot)
  | permP8 (data : DataSlot)
  | permIp (data : DataSlot)
  | permIpinv (data : DataSlot)
  | permEp (data : DataSlot)
  | permP4 (data : DataSlot)
  | rotl (amt : BitVec 3) (data : DataSlot)
  | xor (data : DataSlot) (aux : AuxSlot)
  | split (data : DataSlot)
  | swap (data : DataSlot)
  | sbox0 (data : DataSlot)
  | sbox1 (data : DataSlot)
  | ksched (key : KeySlot)
  | round (data : DataSlot) (aux : AuxSlot)
  | enc (key : KeySlot) (data : DataSlot)
  | dec (key : KeySlot) (data : DataSlot)
  | enc3 (key : KeySlot) (data : DataSlot)
  | dec3 (key : KeySlot) (data : DataSlot)
deriving DecidableEq, Repr

end Sys2Proof
end

