-- ==== Sys2Proof/WellFormed.lean ====
section
/-! DEFINITION. The construction check of operand slots, and an instruction all of whose slots pass it. -/

namespace Sys2Proof

/-- A slot is well-formed when its tag is no greater than its width and no field bit at or above the tag is set
(`30_encoding.md` R65: `field >> tag = 0`). -/
def Slot.wf {t w : Nat} (s : Slot t w) : Bool :=
  decide (s.len.toNat ≤ w) && decide (s.field.toNat >>> s.len.toNat = 0)

/-- Every slot the operation uses is well-formed (`30_encoding.md` R65). An instruction that is not well-formed still
decodes and executes: it ends with INVALID_INPUT. -/
def Instr.WellFormed : Instr → Bool
  | .permP10 data => data.wf
  | .permP8 data => data.wf
  | .permIp data => data.wf
  | .permIpinv data => data.wf
  | .permEp data => data.wf
  | .permP4 data => data.wf
  | .rotl _ data => data.wf
  | .xor data aux => data.wf && aux.wf
  | .split data => data.wf
  | .swap data => data.wf
  | .sbox0 data => data.wf
  | .sbox1 data => data.wf
  | .ksched key => key.wf
  | .round data aux => data.wf && aux.wf
  | .enc key data => key.wf && data.wf
  | .dec key data => key.wf && data.wf
  | .enc3 key data => key.wf && data.wf
  | .dec3 key data => key.wf && data.wf

end Sys2Proof
end

