-- ==== Sys2Proof/Decode.lean ====
section
/-! DEFINITION. The command encoding: the fields of a word, the decoder, the encoder, and the match and mask table. -/

namespace Sys2Proof

/-- The nine fields of a command word (`30_encoding.md` R60). -/
structure Fields where
  op : BitVec 5
  amt : BitVec 3
  key : KeySlot
  data : DataSlot
  aux : AuxSlot
  reserved : BitVec 3
deriving DecidableEq, Repr

/-- A slot with tag and field zero, as an operation that does not use it must leave it (`30_encoding.md` R63). -/
def Slot.zero {t w : Nat} : Slot t w := { len := 0, field := 0 }

/-- The fields of a word: OP 63:59, AMT 58:56, KLEN 55:51, KEY 50:31, DLEN 30:27, DATA 26:17, ALEN 16:13, AUX 12:3,
reserved 2:0 (`30_encoding.md` R60). -/
def Fields.ofWord (w : CmdWord) : Fields :=
  { op := w.extractLsb' 59 5
    amt := w.extractLsb' 56 3
    key := { len := w.extractLsb' 51 5, field := w.extractLsb' 31 20 }
    data := { len := w.extractLsb' 27 4, field := w.extractLsb' 17 10 }
    aux := { len := w.extractLsb' 13 4, field := w.extractLsb' 3 10 }
    reserved := w.extractLsb' 0 3 }

/-- The word with the given fields (`30_encoding.md` R60). -/
def Fields.toWord (f : Fields) : CmdWord :=
  f.op ++ f.amt ++ f.key.len ++ f.key.field ++ f.data.len ++ f.data.field ++ f.aux.len ++ f.aux.field ++ f.reserved

/-- Why a word is illegal (`30_encoding.md` R66). All four end the command with INVALID_OP (`60_exceptions.md` R181);
where several hold, the name given first is the model's own choice and nothing depends on it (log entry 7). -/
inductive Illegal where
  /-- OP is one of the fourteen unassigned values. -/
  | unassignedOp
  /-- Bits 2:0 are not 000. -/
  | reservedBits
  /-- AMT is not 000 in an operation other than ROTL. -/
  | amtNotZero
  /-- A slot the operation does not use is not all zero. -/
  | unusedSlot
deriving DecidableEq, Repr

/-- The operation uses DATA only (`30_encoding.md` R63). -/
def Fields.onlyData (f : Fields) (mk : DataSlot → Instr) : Except Illegal Instr :=
  if f.amt ≠ 0 then .error .amtNotZero
  else if f.key ≠ Slot.zero ∨ f.aux ≠ Slot.zero then .error .unusedSlot
  else .ok (mk f.data)

/-- The operation uses AMT and DATA (`30_encoding.md` R63). -/
def Fields.amtData (f : Fields) (mk : BitVec 3 → DataSlot → Instr) : Except Illegal Instr :=
  if f.key ≠ Slot.zero ∨ f.aux ≠ Slot.zero then .error .unusedSlot
  else .ok (mk f.amt f.data)

/-- The operation uses DATA and AUX (`30_encoding.md` R63). -/
def Fields.dataAux (f : Fields) (mk : DataSlot → AuxSlot → Instr) : Except Illegal Instr :=
  if f.amt ≠ 0 then .error .amtNotZero
  else if f.key ≠ Slot.zero then .error .unusedSlot
  else .ok (mk f.data f.aux)

/-- The operation uses KEY only (`30_encoding.md` R63). -/
def Fields.onlyKey (f : Fields) (mk : KeySlot → Instr) : Except Illegal Instr :=
  if f.amt ≠ 0 then .error .amtNotZero
  else if f.data ≠ Slot.zero ∨ f.aux ≠ Slot.zero then .error .unusedSlot
  else .ok (mk f.key)

/-- The operation uses KEY and DATA (`30_encoding.md` R63). -/
def Fields.keyData (f : Fields) (mk : KeySlot → DataSlot → Instr) : Except Illegal Instr :=
  if f.amt ≠ 0 then .error .amtNotZero
  else if f.aux ≠ Slot.zero then .error .unusedSlot
  else .ok (mk f.key f.data)

/-- The instruction the fields stand for, by the operation codes of `30_encoding.md` R62 and the usage of R63. -/
def decodeFields (f : Fields) : Except Illegal Instr :=
  if f.reserved ≠ 0 then .error .reservedBits
  else
    match f.op.toNat with
    | 0x01 => f.onlyData .permP10
    | 0x02 => f.onlyData .permP8
    | 0x03 => f.onlyData .permIp
    | 0x04 => f.onlyData .permIpinv
    | 0x05 => f.onlyData .permEp
    | 0x06 => f.onlyData .permP4
    | 0x07 => f.amtData .rotl
    | 0x08 => f.dataAux .xor
    | 0x09 => f.onlyData .split
    | 0x0A => f.onlyData .swap
    | 0x0B => f.onlyData .sbox0
    | 0x0C => f.onlyData .sbox1
    | 0x10 => f.onlyKey .ksched
    | 0x11 => f.dataAux .round
    | 0x12 => f.keyData .enc
    | 0x13 => f.keyData .dec
    | 0x14 => f.keyData .enc3
    | 0x15 => f.keyData .dec3
    | _ => .error .unassignedOp

/-- The decoder, total on all 2^64 words (`30_encoding.md` R61 step 1): an instruction, or the name of what is illegal. -/
def decode (w : CmdWord) : Except Illegal Instr :=
  decodeFields (Fields.ofWord w)

/-- The fields of an instruction: its operation code and the parts it uses, everything else zero
(`30_encoding.md` R62, R63). -/
def encodeFields : Instr → Fields
  | .permP10 data => { op := 0x01, amt := 0, key := .zero, data := data, aux := .zero, reserved := 0 }
  | .permP8 data => { op := 0x02, amt := 0, key := .zero, data := data, aux := .zero, reserved := 0 }
  | .permIp data => { op := 0x03, amt := 0, key := .zero, data := data, aux := .zero, reserved := 0 }
  | .permIpinv data => { op := 0x04, amt := 0, key := .zero, data := data, aux := .zero, reserved := 0 }
  | .permEp data => { op := 0x05, amt := 0, key := .zero, data := data, aux := .zero, reserved := 0 }
  | .permP4 data => { op := 0x06, amt := 0, key := .zero, data := data, aux := .zero, reserved := 0 }
  | .rotl amt data => { op := 0x07, amt := amt, key := .zero, data := data, aux := .zero, reserved := 0 }
  | .xor data aux => { op := 0x08, amt := 0, key := .zero, data := data, aux := aux, reserved := 0 }
  | .split data => { op := 0x09, amt := 0, key := .zero, data := data, aux := .zero, reserved := 0 }
  | .swap data => { op := 0x0A, amt := 0, key := .zero, data := data, aux := .zero, reserved := 0 }
  | .sbox0 data => { op := 0x0B, amt := 0, key := .zero, data := data, aux := .zero, reserved := 0 }
  | .sbox1 data => { op := 0x0C, amt := 0, key := .zero, data := data, aux := .zero, reserved := 0 }
  | .ksched key => { op := 0x10, amt := 0, key := key, data := .zero, aux := .zero, reserved := 0 }
  | .round data aux => { op := 0x11, amt := 0, key := .zero, data := data, aux := aux, reserved := 0 }
  | .enc key data => { op := 0x12, amt := 0, key := key, data := data, aux := .zero, reserved := 0 }
  | .dec key data => { op := 0x13, amt := 0, key := key, data := data, aux := .zero, reserved := 0 }
  | .enc3 key data => { op := 0x14, amt := 0, key := key, data := data, aux := .zero, reserved := 0 }
  | .dec3 key data => { op := 0x15, amt := 0, key := key, data := data, aux := .zero, reserved := 0 }

/-- The command word of an instruction (`30_encoding.md` R60, R62, R63). -/
def encode (i : Instr) : CmdWord :=
  (encodeFields i).toWord

/-- The parts of a word an operation may use (`30_encoding.md` R63, column "uses"). -/
inductive Part where
  | amt
  | key
  | data
  | aux
deriving DecidableEq, Repr

/-- One row of the encoding table of `30_encoding.md` R63: the operation's code (R62), the parts it uses, its match and
its mask. -/
structure Row where
  op : BitVec 5
  uses : List Part
  pattern : CmdWord
  mask : CmdWord
deriving DecidableEq, Repr

/-- The word selects the row: `(w AND mask) = match` (`30_encoding.md` R63). -/
def Row.selects (r : Row) (w : CmdWord) : Bool :=
  w &&& r.mask == r.pattern

/-- The eighteen rows of `30_encoding.md` R63, copied from its columns. -/
def rows : List Row :=
  [ { op := 0x01, uses := [.data], pattern := 0x0800000000000000, mask := 0xFFFFFFFF8001FFFF },
    { op := 0x02, uses := [.data], pattern := 0x1000000000000000, mask := 0xFFFFFFFF8001FFFF },
    { op := 0x03, uses := [.data], pattern := 0x1800000000000000, mask := 0xFFFFFFFF8001FFFF },
    { op := 0x04, uses := [.data], pattern := 0x2000000000000000, mask := 0xFFFFFFFF8001FFFF },
    { op := 0x05, uses := [.data], pattern := 0x2800000000000000, mask := 0xFFFFFFFF8001FFFF },
    { op := 0x06, uses := [.data], pattern := 0x3000000000000000, mask := 0xFFFFFFFF8001FFFF },
    { op := 0x07, uses := [.amt, .data], pattern := 0x3800000000000000, mask := 0xF8FFFFFF8001FFFF },
    { op := 0x08, uses := [.data, .aux], pattern := 0x4000000000000000, mask := 0xFFFFFFFF80000007 },
    { op := 0x09, uses := [.data], pattern := 0x4800000000000000, mask := 0xFFFFFFFF8001FFFF },
    { op := 0x0A, uses := [.data], pattern := 0x5000000000000000, mask := 0xFFFFFFFF8001FFFF },
    { op := 0x0B, uses := [.data], pattern := 0x5800000000000000, mask := 0xFFFFFFFF8001FFFF },
    { op := 0x0C, uses := [.data], pattern := 0x6000000000000000, mask := 0xFFFFFFFF8001FFFF },
    { op := 0x10, uses := [.key], pattern := 0x8000000000000000, mask := 0xFF0000007FFFFFFF },
    { op := 0x11, uses := [.data, .aux], pattern := 0x8800000000000000, mask := 0xFFFFFFFF80000007 },
    { op := 0x12, uses := [.key, .data], pattern := 0x9000000000000000, mask := 0xFF0000000001FFFF },
    { op := 0x13, uses := [.key, .data], pattern := 0x9800000000000000, mask := 0xFF0000000001FFFF },
    { op := 0x14, uses := [.key, .data], pattern := 0xA000000000000000, mask := 0xFF0000000001FFFF },
    { op := 0x15, uses := [.key, .data], pattern := 0xA800000000000000, mask := 0xFF0000000001FFFF } ]

/-- The instruction the decoder reads from an opcode-table word: there is one word of 64 bits, and its bit 0 is the
word's least significant bit. Bits at and above `nbits` are zero (DEDUCED, log entry 10). -/
def decodeTableWord (nbits w : Nat) : Option Instr :=
  match decode (BitVec.ofNat 64 (w % 2 ^ nbits)) with
  | .ok i => some i
  | .error _ => none

end Sys2Proof
end

