-- ==== Sys2Proof/Config.lean ====
section
/-! DEFINITION. What is fixed for a core: the numeric parameters and the record of the eight tables with its well-formedness. -/

namespace Sys2Proof

namespace Config

/-- BLOCK_BITS (`00_scope.md` R5). -/
def blockBits : Nat := 8

/-- KEY_BITS (`00_scope.md` R5). -/
def keyBits : Nat := 10

/-- SUBKEY_BITS (`00_scope.md` R5). -/
def subkeyBits : Nat := 8

/-- HALF_BITS (`00_scope.md` R5). -/
def halfBits : Nat := 4

/-- KEY_HALF_BITS (`00_scope.md` R5). -/
def keyHalfBits : Nat := 5

/-- SHIFT_1 (`00_scope.md` R5). -/
def shift1 : Nat := 1

/-- SHIFT_2, the further rotation after SHIFT_1 (`00_scope.md` R5). -/
def shift2 : Nat := 2

/-- COMBINED_KEY_BITS (`00_scope.md` R5). -/
def combinedKeyBits : Nat := 20

end Config

/-- An index table: entry number i says which 1-based position of the input goes to position i of the output
(`00_scope.md` R6, `40_primitives.md` R100). -/
abbrev IndexTable := List Nat

/-- An S-box: four rows of four entries, each 0 to 3 (`00_scope.md` R6). -/
abbrev SBox := Vector (Vector (Fin 4) 4) 4

/-- The eight constant tables (`00_scope.md` R6). Their contents are a parameter of the core (`92_eei_decisions.md` D4). -/
structure Tables where
  p10 : IndexTable
  p8 : IndexTable
  ip : IndexTable
  ipinv : IndexTable
  ep : IndexTable
  p4 : IndexTable
  s0 : SBox
  s1 : SBox
deriving DecidableEq, Repr

/-- An index table has `len` entries, each in 1..`top` (`00_scope.md` R6). -/
abbrev IndexTable.Fits (t : IndexTable) (len top : Nat) : Prop :=
  t.length = len ∧ ∀ e ∈ t, 1 ≤ e ∧ e ≤ top

/-- `WF(Tables)` (`00_scope.md` R6). The S-boxes' shape and range hold by their type. -/
structure Tables.WF (T : Tables) : Prop where
  p10 : T.p10.Fits 10 10
  p8 : T.p8.Fits 8 10
  ip : T.ip.Fits 8 8
  ipBijective : T.ip.Nodup
  ipinv : T.ipinv.Fits 8 8
  ipinvInverse : ∀ i < 8, T.ipinv[i]?.bind (fun j => T.ip[j - 1]?) = some (i + 1)
  ep : T.ep.Fits 8 4
  p4 : T.p4.Fits 4 4

/-- The tables a core was built with, which are well-formed (`00_scope.md` R6: the model "must require of any `Tables` it
is instantiated with" that WF holds; `70_reset_and_hazards.md` R212: the only precondition of the spec is on the build). -/
structure Build where
  tables : Tables
  wf : tables.WF
deriving DecidableEq, Repr

end Sys2Proof
end

