-- ==== Sys2Proof/Machine/Tables.lean ====
section
/-! DEFINITION. The default contents of the eight tables. -/

namespace Sys2Proof.Machine

/-- The default `Tables` of `00_scope.md` R7, the spec's own default value, which it marks as general knowledge (S-DES).
PRESUMED (log entry 2), unsafe: only what is said of State.reset may rest on these contents. -/
def defaultTables : Tables :=
  { p10 := [3, 5, 2, 7, 4, 10, 1, 9, 8, 6]
    p8 := [6, 3, 7, 4, 8, 5, 10, 9]
    ip := [2, 6, 3, 1, 4, 8, 5, 7]
    ipinv := [4, 1, 3, 5, 7, 2, 8, 6]
    ep := [4, 1, 2, 3, 2, 3, 4, 1]
    p4 := [2, 4, 3, 1]
    s0 := #v[#v[1, 0, 3, 2], #v[3, 2, 1, 0], #v[0, 2, 1, 3], #v[3, 1, 3, 2]]
    s1 := #v[#v[0, 1, 2, 3], #v[2, 0, 1, 3], #v[3, 0, 1, 0], #v[2, 1, 0, 3]] }

/-- The default tables satisfy WF (`00_scope.md` R7, "checked entry by entry"). -/
theorem defaultTables_wf : defaultTables.WF where
  p10 := by decide
  p8 := by decide
  ip := by decide
  ipBijective := by decide
  ipinv := by decide
  ipinvInverse := by decide
  ep := by decide
  p4 := by decide

/-- A core built with the default tables. -/
def defaultBuild : Build :=
  { tables := defaultTables, wf := defaultTables_wf }

end Sys2Proof.Machine
end

