-- ==== Sys2Proof/Machine/State.lean ====
section
/-! DEFINITION. The state of the machine, what it holds after reset, and the reasons for a stop. -/

namespace Sys2Proof.Machine

/-- An event by which the host meets the core (`10_state.md` R24). There is no other event (`60_exceptions.md` R194). -/
inductive Event where
  /-- The host presents a command word, legal or not (`60_exceptions.md` R193). -/
  | command (w : CmdWord)
  /-- The host resets the core (`70_reset_and_hazards.md` R210). -/
  | reset
deriving DecidableEq, Repr

/-- The state. `resp` is all the state the spec gives the core (`10_state.md` R22, R27); the two other fields are what the
step takes beside it, carried here because the host's step has no further argument. -/
structure State where
  /-- The response register RESP (`10_state.md` R22). -/
  resp : RespWord
  /-- The tables the core was built with, a parameter of the step (`10_state.md` R25). The model's own field; no event
  changes it. DESIGN CHOICE (log entry 1), safe: statements hold for every build. -/
  built : Build
  /-- The events the host has yet to present, the next one first (`10_state.md` R24, `20_memory.md` R45). The model's own
  field. DESIGN CHOICE (log entry 3), safe: it may hold any sequence of events. -/
  pending : List Event
deriving DecidableEq, Repr

/-- The tables of this core (`00_scope.md` R6). -/
abbrev State.tables (s : State) : Tables := s.built.tables

/-- The machine right after reset: RESP is zero (`10_state.md` R27), the tables are the default ones (`00_scope.md` R7,
log entry 2) and the host has presented nothing (log entry 3). -/
def State.reset : State :=
  { resp := 0x00000000, built := defaultBuild, pending := [] }

/-- Reasons to stop with a fault. There is none: the spec's errors are reported in RESP and the machine goes on
(`60_exceptions.md` R187), and every command completes (R193). No step raises a fault; safe (DEDUCED, log entry 9). -/
inductive Fault : Type
deriving DecidableEq, Repr

/-- Reasons to refuse an instruction. -/
inductive Refusal where
  /-- Raised only by an arm of exec whose instruction has no meaning yet; no arm is left, so nothing raises it. Safe. -/
  | notModelled (mnemonic : String)
deriving DecidableEq, Repr

/-- What a step answers. -/
abbrev Answer := Host.Outcome State Fault Refusal

end Sys2Proof.Machine
end

