-- ==== Sys2Proof/Machine/Vectors.lean ====
section
/-! DEFINITION. Bit vectors: positions, and the value of a vector in a hardware field. -/

namespace Sys2Proof

/-- `v{p}`: the element at position `p`, counted from 1 (`00_scope.md` R8); `none` where there is no such position. -/
def Bits.position (v : Bits) : Nat → Option Bool
  | 0 => none
  | p + 1 => v[p]?

namespace Machine

/-- The weight of a vector: position 1 is the most significant bit (`00_scope.md` R9: `val(v)` is the sum over p of
`v{p} * 2^(n-p)`). -/
def val : Bits → Nat
  | [] => 0
  | b :: v => b.toNat * 2 ^ v.length + val v

/-- The vector of length `n` with value `x`, most significant bit first (`00_scope.md` R9: `vec_n(x)`). -/
def vecOf : Nat → Nat → Bits
  | 0, _ => []
  | n + 1, x => x.testBit n :: vecOf n x

end Machine

end Sys2Proof
end

