-- ==== Sys2Proof/Machine/Flags.lean ====
section
/-! DEFINITION. The status codes and the fields of RESP. The core has no flags and no condition codes (`10_state.md` R23);
RESP.STAT is its only outcome indicator. -/

namespace Sys2Proof.Machine

/-- The five errors (`60_exceptions.md` R180). The function layer returns the last four (`00_scope.md` R10); INVALID_OP
comes from decoding alone (R181). -/
inductive Err where
  | invalidOp
  | invalidInput
  | malformedInput
  | lengthMismatch
  | invalidTable
deriving DecidableEq, Repr

/-- The 3-bit code of an error (`60_exceptions.md` R180); 0 is OK, and 6 and 7 are never written. -/
def errCode : Err → BitVec 3
  | .invalidOp => 1
  | .invalidInput => 2
  | .malformedInput => 3
  | .lengthMismatch => 4
  | .invalidTable => 5

/-- The result of a function or an operation: a vector, or an error and no value at all (`00_scope.md` R10,
`60_exceptions.md` R187: an erring command "never yields a result value"). -/
abbrev Result := Except Err Bits

/-- A RESP word from its fields: VALID 31, STAT 30:28, reserved zero 27:21, RLEN 20:16, RES 15:0 (`10_state.md` R22). -/
def respWord (valid : BitVec 1) (stat : BitVec 3) (rlen : BitVec 5) (res : BitVec 16) : RespWord :=
  valid ++ stat ++ (0 : BitVec 7) ++ rlen ++ res

/-- RESP after a command with result `r`: VALID = 1, STAT = 000, RLEN = len(r), RES = zext_16(r) (`30_encoding.md` R68). -/
def okWord (r : Bits) : RespWord :=
  respWord 1 0 (BitVec.ofNat 5 r.length) (BitVec.ofNat 16 (val r))

/-- RESP after an error: VALID = 1, STAT = its code, RLEN = 0, RES = 0 (`60_exceptions.md` R187). -/
def errorWord (e : Err) : RespWord :=
  respWord 1 (errCode e) 0 0

/-- RESP after a command that ended with `r` (`30_encoding.md` R61 step 5, `60_exceptions.md` R187). -/
def resultWord : Result → RespWord
  | .ok r => okWord r
  | .error e => errorWord e

/-- RESP.VALID (`10_state.md` R22). -/
def validOf (w : RespWord) : BitVec 1 := w.extractLsb' 31 1

/-- RESP.STAT (`10_state.md` R22). -/
def statOf (w : RespWord) : BitVec 3 := w.extractLsb' 28 3

/-- RESP bits 27:21, reserved (`10_state.md` R22). -/
def reservedOf (w : RespWord) : BitVec 7 := w.extractLsb' 21 7

/-- RESP.RLEN (`10_state.md` R22). -/
def rlenOf (w : RespWord) : BitVec 5 := w.extractLsb' 16 5

/-- RESP.RES (`10_state.md` R22). -/
def resOf (w : RespWord) : BitVec 16 := w.extractLsb' 0 16

/-- The result vector RESP shows: `r{p}` is bit RLEN - p of RES (`10_state.md` R22). -/
def resultOf (w : RespWord) : Bits :=
  vecOf (rlenOf w).toNat (resOf w).toNat

end Sys2Proof.Machine
end

