-- ==== Sys2Proof/Machine/Operands.lean ====
section
/-! DEFINITION. Operand forms: the vector a slot carries, the construction check, and the slot that carries a vector. -/

namespace Sys2Proof.Machine

/-- `vec_L(F)`: the vector of a well-formed slot with tag L and field F, `v{p} = F[L-p]` (`30_encoding.md` R64). -/
def slotBits {t w : Nat} (s : Slot t w) : Bits :=
  vecOf s.len.toNat s.field.toNat

/-- A used slot read as a vector: INVALID_INPUT when it is ill-formed (`30_encoding.md` R65, R61 steps 2 and 3). -/
def slotVector {t w : Nat} (s : Slot t w) : Result :=
  if s.wf then .ok (slotBits s) else .error .invalidInput

/-- The slot that carries a vector: tag = its length, field = `zext_W(v)` (`30_encoding.md` R64). `none` where the vector is
longer than the field, which cannot be placed (R69). -/
def placeVector (t w : Nat) (v : Bits) : Option (Slot t w) :=
  if v.length ≤ w then some { len := BitVec.ofNat t v.length, field := BitVec.ofNat w (val v) } else none

/-- The rotation amount as an integer 0 to 7, taken as it stands (`30_encoding.md` R61). -/
def amount (amt : BitVec 3) : Nat :=
  amt.toNat

/-- A condition an operation's pseudocode tests before it goes on: `if not c: raise e` (`00_scope.md` section 6). -/
def require (c : Bool) (e : Err) : Except Err Unit :=
  if c then .ok () else .error e

end Sys2Proof.Machine
end

