-- ==== Sys2Proof/Machine/Ops.lean ====
section
/-! DEFINITION. The operations on the state that every command shares: writing RESP, raising an error, resetting, and
taking the host's next event. -/

namespace Sys2Proof.Machine

/-- `RESP <- w`: all 32 bits are written, once, at the end of a command (`10_state.md` R22, `20_memory.md` R43). -/
def writeResp (w : RespWord) (s : State) : State :=
  { s with resp := w }

/-- `raise e`, the core's whole form of taking an exception: RESP gets VALID = 1, the code, RLEN = 0, RES = 0, and nothing
else happens; no state is saved and control goes nowhere (`60_exceptions.md` R187). There is no return from it and nothing
to restore: the next command executes as if the error had not happened (R189). -/
def raise (e : Err) (s : State) : State :=
  writeResp (errorWord e) s

/-- End a command: pack its result (`30_encoding.md` R68), or raise its error (`60_exceptions.md` R187). -/
def finish (r : Result) (s : State) : Answer :=
  match r with
  | .ok v => .next (writeResp (okWord v) s)
  | .error e => .next (raise e s)

/-- A word that selects no row: INVALID_OP (`30_encoding.md` R61 step 1, R66; `60_exceptions.md` R181). -/
def illegalCommand (_why : Illegal) (s : State) : Answer :=
  .next (raise .invalidOp s)

/-- The `reset` event: RESP <- 0x00000000 and nothing else (`10_state.md` R24, R27; `70_reset_and_hazards.md` R210, R211). -/
def takeReset (s : State) : Answer :=
  .next (writeResp 0x00000000 s)

/-- Between events nothing changes (`10_state.md` R24); the core simply holds RESP (`60_exceptions.md` R192). -/
def idle (s : State) : Answer :=
  .next s

/-- The host's next event and the state once it has been taken (`20_memory.md` R45: one at a time, in the order presented). -/
def nextEvent (s : State) : Option Event × State :=
  match s.pending with
  | [] => (none, s)
  | e :: rest => (some e, { s with pending := rest })

/-- The host presents one more event, to be taken before all that are pending. -/
def presentFirst (e : Event) (s : State) : State :=
  { s with pending := e :: s.pending }

/-- The host reads RESP: any time, without side effect (`10_state.md` R22, `20_memory.md` R43). -/
def readResp (s : State) : RespWord :=
  s.resp

/-- The command of an opcode-table word: 64 bits, those at and above `nbits` zero. -/
def tableCommand (nbits w : Nat) : Event :=
  .command (BitVec.ofNat 64 (w % 2 ^ nbits))

end Sys2Proof.Machine
end

