-- ==== Sys2Proof/Machine/Primitives.lean ====
section
/-! DEFINITION. `40_primitives.md`: the bit-vector functions R100 to R105 and the twelve operations R110 to R121. -/

namespace Sys2Proof.Machine

/-! ## The functions -/

/-- `permute(x, T)` (`40_primitives.md` R100): `y{i} = x{T[i]}`; INVALID_TABLE when some entry is above `len(x)` or
below 1. -/
def permute (x : Bits) (T : IndexTable) : Result :=
  match T.mapM x.position with
  | some y => .ok y
  | none => .error .invalidTable

/-- `rotateLeft(x, k)` (`40_primitives.md` R101): the first `k mod n` elements re-enter at the back; the empty vector stays
empty. It never fails. -/
def rotateLeft (x : Bits) (k : Nat) : Bits :=
  x.drop (k % x.length) ++ x.take (k % x.length)

/-- `xor(a, b)` (`40_primitives.md` R102): elementwise; LENGTH_MISMATCH when the lengths differ. -/
def xor (a b : Bits) : Result :=
  if a.length = b.length then .ok (List.zipWith Bool.xor a b) else .error .lengthMismatch

/-- `splitHalves(x)` (`40_primitives.md` R103): `(x{1..4}, x{5..8})`; MALFORMED_INPUT when `len(x)` is not 8. -/
def splitHalves (x : Bits) : Except Err (Bits × Bits) :=
  if x.length = Config.blockBits then .ok (x.take Config.halfBits, x.drop Config.halfBits)
  else .error .malformedInput

/-- `swapHalves(x)` (`40_primitives.md` R104): `x{5..8} ‖ x{1..4}`; MALFORMED_INPUT when `len(x)` is not 8. -/
def swapHalves (x : Bits) : Result :=
  if x.length = Config.blockBits then .ok (x.drop Config.halfBits ++ x.take Config.halfBits)
  else .error .malformedInput

/-- `2·hi + lo`, a row or column number 0 to 3 (`40_primitives.md` R105, R106). -/
def pairNumber (hi lo : Bool) : Fin 4 :=
  ⟨2 * hi.toNat + lo.toNat, by cases hi <;> cases lo <;> decide⟩

/-- `sBoxLookup(b, S)` (`40_primitives.md` R105): the row from the outer bits, the column from the inner bits, the stored
value as two bits, the higher first; MALFORMED_INPUT when `len(b)` is not 4. -/
def sBoxLookup (b : Bits) (S : SBox) : Result :=
  match b with
  | [b1, b2, b3, b4] => .ok (vecOf 2 ((S.get (pairNumber b1 b4)).get (pairNumber b2 b3)).val)
  | _ => .error .malformedInput

/-! ## The operations' own rules, on the vectors their slots carry -/

/-- PERM_P10 (`40_primitives.md` R110). -/
def rulePermP10 (T : Tables) (D : Bits) : Result := permute D T.p10

/-- PERM_P8 (`40_primitives.md` R111). -/
def rulePermP8 (T : Tables) (D : Bits) : Result := permute D T.p8

/-- PERM_IP (`40_primitives.md` R112). -/
def rulePermIp (T : Tables) (D : Bits) : Result := permute D T.ip

/-- PERM_IPINV (`40_primitives.md` R113). -/
def rulePermIpinv (T : Tables) (D : Bits) : Result := permute D T.ipinv

/-- PERM_EP (`40_primitives.md` R114). -/
def rulePermEp (T : Tables) (D : Bits) : Result := permute D T.ep

/-- PERM_P4 (`40_primitives.md` R115). -/
def rulePermP4 (T : Tables) (D : Bits) : Result := permute D T.p4

/-- ROTL (`40_primitives.md` R116). -/
def ruleRotl (k : Nat) (D : Bits) : Result := .ok (rotateLeft D k)

/-- XOR (`40_primitives.md` R117). -/
def ruleXor (D A : Bits) : Result := xor D A

/-- SPLIT (`40_primitives.md` R118): left half then right half. -/
def ruleSplit (D : Bits) : Result := do
  let (L, R) ← splitHalves D
  .ok (L ++ R)

/-- SWAP (`40_primitives.md` R119). -/
def ruleSwap (D : Bits) : Result := swapHalves D

/-- SBOX0 (`40_primitives.md` R120). -/
def ruleSbox0 (T : Tables) (D : Bits) : Result := sBoxLookup D T.s0

/-- SBOX1 (`40_primitives.md` R121). -/
def ruleSbox1 (T : Tables) (D : Bits) : Result := sBoxLookup D T.s1

/-! ## The meanings -/

/-- PERM_P10 (`40_primitives.md` R110). -/
def execPermP10 (data : DataSlot) (s : State) : Answer :=
  finish (do let D ← slotVector data; rulePermP10 s.tables D) s

/-- PERM_P8 (`40_primitives.md` R111). -/
def execPermP8 (data : DataSlot) (s : State) : Answer :=
  finish (do let D ← slotVector data; rulePermP8 s.tables D) s

/-- PERM_IP (`40_primitives.md` R112). -/
def execPermIp (data : DataSlot) (s : State) : Answer :=
  finish (do let D ← slotVector data; rulePermIp s.tables D) s

/-- PERM_IPINV (`40_primitives.md` R113). -/
def execPermIpinv (data : DataSlot) (s : State) : Answer :=
  finish (do let D ← slotVector data; rulePermIpinv s.tables D) s

/-- PERM_EP (`40_primitives.md` R114). -/
def execPermEp (data : DataSlot) (s : State) : Answer :=
  finish (do let D ← slotVector data; rulePermEp s.tables D) s

/-- PERM_P4 (`40_primitives.md` R115). -/
def execPermP4 (data : DataSlot) (s : State) : Answer :=
  finish (do let D ← slotVector data; rulePermP4 s.tables D) s

/-- ROTL (`40_primitives.md` R116). -/
def execRotl (amt : BitVec 3) (data : DataSlot) (s : State) : Answer :=
  finish (do let D ← slotVector data; ruleRotl (amount amt) D) s

/-- XOR (`40_primitives.md` R117). -/
def execXor (data : DataSlot) (aux : AuxSlot) (s : State) : Answer :=
  finish (do let D ← slotVector data; let A ← slotVector aux; ruleXor D A) s

/-- SPLIT (`40_primitives.md` R118). -/
def execSplit (data : DataSlot) (s : State) : Answer :=
  finish (do let D ← slotVector data; ruleSplit D) s

/-- SWAP (`40_primitives.md` R119). -/
def execSwap (data : DataSlot) (s : State) : Answer :=
  finish (do let D ← slotVector data; ruleSwap D) s

/-- SBOX0 (`40_primitives.md` R120). -/
def execSbox0 (data : DataSlot) (s : State) : Answer :=
  finish (do let D ← slotVector data; ruleSbox0 s.tables D) s

/-- SBOX1 (`40_primitives.md` R121). -/
def execSbox1 (data : DataSlot) (s : State) : Answer :=
  finish (do let D ← slotVector data; ruleSbox1 s.tables D) s

end Sys2Proof.Machine
end

