-- ==== Sys2Proof/Machine/KeySchedule.lean ====
section
/-! DEFINITION. `41_key_schedule.md`: the key schedule R140 and the operation KSCHED R141. -/

namespace Sys2Proof.Machine

/-- Each 5-bit half of a 10-bit vector rotated left by `k`, on its own (`41_key_schedule.md` R140: "The two halves are
rotated separately, each within its own five bits"). -/
def rotateKeyHalves (p : Bits) (k : Nat) : Bits :=
  rotateLeft (p.take Config.keyHalfBits) k ++ rotateLeft (p.drop Config.keyHalfBits) k

/-- `keySchedule(k)` (`41_key_schedule.md` R140): P10, halves rotated by 1 and P8 for SK1, then by 2 more and P8 for SK2;
INVALID_INPUT, before any permutation, when the key has not 10 bits. -/
def keySchedule (T : Tables) (k : Bits) : Except Err (Bits × Bits) := do
  require (k.length = Config.keyBits) .invalidInput
  let p ← permute k T.p10
  let k1 := rotateKeyHalves p Config.shift1
  let SK1 ← permute k1 T.p8
  let k3 := rotateKeyHalves k1 Config.shift2
  let SK2 ← permute k3 T.p8
  .ok (SK1, SK2)

/-- KSCHED (`41_key_schedule.md` R141): SK1 then SK2, 16 bits. -/
def ruleKsched (T : Tables) (K : Bits) : Result := do
  require (K.length = Config.keyBits) .invalidInput
  let (SK1, SK2) ← keySchedule T K
  .ok (SK1 ++ SK2)

/-- KSCHED (`41_key_schedule.md` R141). -/
def execKsched (key : KeySlot) (s : State) : Answer :=
  finish (do let K ← slotVector key; ruleKsched s.tables K) s

end Sys2Proof.Machine
end

