-- ==== Sys2Proof/Machine/Round.lean ====
section
/-! DEFINITION. `42_round.md`: the Feistel round R150 and the operation ROUND R151. -/

namespace Sys2Proof.Machine

/-- `mask(R, sk)` (`42_round.md` R150): expand, add the subkey, S0 on the left half and S1 on the right, P4. -/
def mask (T : Tables) (R sk : Bits) : Result := do
  let e ← permute R T.ep
  let t ← xor e sk
  let (tl, tr) ← splitHalves t
  let u0 ← sBoxLookup tl T.s0
  let u1 ← sBoxLookup tr T.s1
  permute (u0 ++ u1) T.p4

/-- `round(s, sk)` (`42_round.md` R150): the mask is added onto the left half; the right half passes through and the halves
stay in place. -/
def round (T : Tables) (s sk : Bits) : Result := do
  let (L, R) ← splitHalves s
  let m ← mask T R sk
  let Lnew ← xor m L
  .ok (Lnew ++ R)

/-- ROUND (`42_round.md` R151): the state's length is tested before the subkey's. -/
def ruleRound (T : Tables) (D A : Bits) : Result := do
  require (D.length = Config.blockBits) .malformedInput
  require (A.length = Config.subkeyBits) .lengthMismatch
  round T D A

/-- ROUND (`42_round.md` R151). -/
def execRound (data : DataSlot) (aux : AuxSlot) (s : State) : Answer :=
  finish (do let D ← slotVector data; let A ← slotVector aux; ruleRound s.tables D A) s

end Sys2Proof.Machine
end

