-- ==== Sys2Proof/Machine/SingleCipher.lean ====
section
/-! DEFINITION. `43_single_cipher.md`: `encrypt` R160, `decrypt` R161 and the operations ENC R164, DEC R165. -/

namespace Sys2Proof.Machine

/-- IP, a round, one swap, a round, IPINV: the structure `encrypt` and `decrypt` share, which differ in the order of the
subkeys only (`43_single_cipher.md` R160, R161: "identical structure but round order reversed"). -/
def twoRounds (T : Tables) (first second x : Bits) : Result := do
  let s0 ← permute x T.ip
  let s1 ← round T s0 first
  let s2 ← swapHalves s1
  let s3 ← round T s2 second
  permute s3 T.ipinv

/-- `encrypt(k, p)` (`43_single_cipher.md` R160): the key's length first (R162), then the block's (R163), then SK1 and SK2
in that order. -/
def encrypt (T : Tables) (k p : Bits) : Result := do
  require (k.length = Config.keyBits) .invalidInput
  require (p.length = Config.blockBits) .malformedInput
  let (SK1, SK2) ← keySchedule T k
  twoRounds T SK1 SK2 p

/-- `decrypt(k, c)` (`43_single_cipher.md` R161): as `encrypt`, the second subkey first. -/
def decrypt (T : Tables) (k c : Bits) : Result := do
  require (k.length = Config.keyBits) .invalidInput
  require (c.length = Config.blockBits) .malformedInput
  let (SK1, SK2) ← keySchedule T k
  twoRounds T SK2 SK1 c

/-- ENC (`43_single_cipher.md` R164). -/
def ruleEnc (T : Tables) (K D : Bits) : Result := do
  require (K.length = Config.keyBits) .invalidInput
  require (D.length = Config.blockBits) .malformedInput
  encrypt T K D

/-- DEC (`43_single_cipher.md` R165). -/
def ruleDec (T : Tables) (K D : Bits) : Result := do
  require (K.length = Config.keyBits) .invalidInput
  require (D.length = Config.blockBits) .malformedInput
  decrypt T K D

/-- ENC (`43_single_cipher.md` R164). -/
def execEnc (key : KeySlot) (data : DataSlot) (s : State) : Answer :=
  finish (do let K ← slotVector key; let D ← slotVector data; ruleEnc s.tables K D) s

/-- DEC (`43_single_cipher.md` R165). -/
def execDec (key : KeySlot) (data : DataSlot) (s : State) : Answer :=
  finish (do let K ← slotVector key; let D ← slotVector data; ruleDec s.tables K D) s

end Sys2Proof.Machine
end

