-- ==== Sys2Proof/Machine/TripleCipher.lean ====
section
/-! DEFINITION. `44_triple_cipher.md`: `encrypt3` R170, `decrypt3` R171 and the operations ENC3 R173, DEC3 R174. -/

namespace Sys2Proof.Machine

/-- `encrypt3(MK1, MK2, p)` (`44_triple_cipher.md` R170): encrypt under MK1, decrypt under MK2, encrypt under MK1. -/
def encrypt3 (T : Tables) (MK1 MK2 p : Bits) : Result := do
  require (decide (MK1.length = Config.keyBits) && decide (MK2.length = Config.keyBits)) .invalidInput
  require (p.length = Config.blockBits) .malformedInput
  let a ← encrypt T MK1 p
  let b ← decrypt T MK2 a
  encrypt T MK1 b

/-- `decrypt3(CK, c)` (`44_triple_cipher.md` R171): MK1 is `CK{1..10}` and MK2 `CK{11..20}`; decrypt under MK1, encrypt under
MK2, decrypt under MK1. -/
def decrypt3 (T : Tables) (CK c : Bits) : Result := do
  require (CK.length = Config.combinedKeyBits) .invalidInput
  require (c.length = Config.blockBits) .malformedInput
  let MK1 := CK.take Config.keyBits
  let MK2 := CK.drop Config.keyBits
  let x ← decrypt T MK1 c
  let y ← encrypt T MK2 x
  decrypt T MK1 y

/-- ENC3 (`44_triple_cipher.md` R173): `encrypt3(K{1..10}, K{11..20}, D)`. -/
def ruleEnc3 (T : Tables) (K D : Bits) : Result := do
  require (K.length = Config.combinedKeyBits) .invalidInput
  require (D.length = Config.blockBits) .malformedInput
  encrypt3 T (K.take Config.keyBits) (K.drop Config.keyBits) D

/-- DEC3 (`44_triple_cipher.md` R174). -/
def ruleDec3 (T : Tables) (K D : Bits) : Result := do
  require (K.length = Config.combinedKeyBits) .invalidInput
  require (D.length = Config.blockBits) .malformedInput
  decrypt3 T K D

/-- ENC3 (`44_triple_cipher.md` R173). -/
def execEnc3 (key : KeySlot) (data : DataSlot) (s : State) : Answer :=
  finish (do let K ← slotVector key; let D ← slotVector data; ruleEnc3 s.tables K D) s

/-- DEC3 (`44_triple_cipher.md` R174). -/
def execDec3 (key : KeySlot) (data : DataSlot) (s : State) : Answer :=
  finish (do let K ← slotVector key; let D ← slotVector data; ruleDec3 s.tables K D) s

end Sys2Proof.Machine
end

