-- ==== Sys2Proof/Machine/Dispatch.lean ====
section
/-! DEFINITION. The dispatch: one arm per operation. -/

namespace Sys2Proof.Machine

def exec (i : Instr) (s : State) : Host.Outcome State Fault Refusal :=
  match i with
  | .permP10 data => Sys2Proof.Machine.execPermP10 data s
  | .permP8 data => Sys2Proof.Machine.execPermP8 data s
  | .permIp data => Sys2Proof.Machine.execPermIp data s
  | .permIpinv data => Sys2Proof.Machine.execPermIpinv data s
  | .permEp data => Sys2Proof.Machine.execPermEp data s
  | .permP4 data => Sys2Proof.Machine.execPermP4 data s
  | .rotl amt data => Sys2Proof.Machine.execRotl amt data s
  | .xor data aux => Sys2Proof.Machine.execXor data aux s
  | .split data => Sys2Proof.Machine.execSplit data s
  | .swap data => Sys2Proof.Machine.execSwap data s
  | .sbox0 data => Sys2Proof.Machine.execSbox0 data s
  | .sbox1 data => Sys2Proof.Machine.execSbox1 data s
  | .ksched key => Sys2Proof.Machine.execKsched key s
  | .round data aux => Sys2Proof.Machine.execRound data aux s
  | .enc key data => Sys2Proof.Machine.execEnc key data s
  | .dec key data => Sys2Proof.Machine.execDec key data s
  | .enc3 key data => Sys2Proof.Machine.execEnc3 key data s
  | .dec3 key data => Sys2Proof.Machine.execDec3 key data s

end Sys2Proof.Machine
end

