-- ==== Sys2Proof/Machine/Step.lean ====
section
/-! DEFINITION. One step of the machine: the host's next event is taken and executed. -/

namespace Sys2Proof.Machine

/-- One step (`10_state.md` R24): a command is decoded and executed as one atomic step, a reset clears RESP, and with no
event pending nothing changes. -/
def step (s : State) : Host.Outcome State Fault Refusal :=
  match nextEvent s with
  | (none, t) => idle t
  | (some .reset, t) => takeReset t
  | (some (.command w), t) =>
    match decode w with
    | .ok i => exec i t
    | .error why => illegalCommand why t

/-- The state with an opcode-table word presented as the host's next command, before all other pending events
(log entry 6). -/
def State.withFetchWord (s : State) (nbits w : Nat) : State :=
  presentFirst (tableCommand nbits w) s

end Sys2Proof.Machine
end

