-- ==== Sys2Proof/Machine/Assembler.lean ====
section
/-! DEFINITION. The textual form of commands, `30_encoding.md` R69 and R70. -/

namespace Sys2Proof.Machine

/-- A vector literal: `0` and `1`, first position leftmost, or the single character `e` for the empty vector
(`30_encoding.md` R69). -/
def readLiteral (cs : List Char) : Option Bits :=
  match cs with
  | [] => none
  | ['e'] => some []
  | _ => cs.mapM (fun c => if c = '0' then some false else if c = '1' then some true else none)

/-- The literal of a vector (`30_encoding.md` R69). -/
def writeLiteral (v : Bits) : List Char :=
  if v.isEmpty then ['e'] else v.map (fun b => if b then '1' else '0')

/-- The value of a digit: its place in the row of digits it is taken from, counted from 0. -/
def digitValue (digits : String) (c : Char) : Option Nat :=
  digits.toList.idxOf? c

/-- A rotation amount: one decimal digit 0 to 7 (`30_encoding.md` R69; DESIGN CHOICE: no leading zero, log entry 8). -/
def readAmount (cs : List Char) : Option (BitVec 3) :=
  match cs with
  | [c] => (digitValue "01234567" c).map (BitVec.ofNat 3)
  | _ => none

/-- A hexadecimal digit (DESIGN CHOICE: either case, log entry 8). -/
def readHexDigit (c : Char) : Option Nat :=
  (digitValue "0123456789ABCDEF" c).or (digitValue "0123456789abcdef" c)

/-- A raw word: `0x` and sixteen hexadecimal digits (`30_encoding.md` R69). -/
def readRawWord (cs : List Char) : Option CmdWord :=
  match cs with
  | '0' :: 'x' :: ds =>
    if ds.length = 16 then
      (ds.mapM readHexDigit).map (fun vs => BitVec.ofNat 64 (vs.foldl (fun n v => 16 * n + v) 0))
    else none
  | _ => none

/-- The operands of a line, separated by a comma and a space (`30_encoding.md` R69). -/
def splitOperands : List Char → List (List Char)
  | [] => [[]]
  | ',' :: ' ' :: rest => [] :: splitOperands rest
  | c :: rest =>
    match splitOperands rest with
    | [] => [[c]]
    | x :: xs => (c :: x) :: xs

/-- A literal placed in a slot; one that is longer than the field cannot be assembled (`30_encoding.md` R69). -/
def readSlot (t w : Nat) (cs : List Char) : Option (Slot t w) :=
  (readLiteral cs).bind (placeVector t w)

/-- One DATA operand (`30_encoding.md` R69). -/
def asmData (mk : DataSlot → Instr) : List (List Char) → Option CmdWord
  | [d] => (readSlot 4 10 d).map (fun data => encode (mk data))
  | _ => none

/-- DATA, then the amount (`30_encoding.md` R69: `ROTL data, amt`). -/
def asmDataAmount (mk : BitVec 3 → DataSlot → Instr) : List (List Char) → Option CmdWord
  | [d, k] => do
    let data ← readSlot 4 10 d
    let amt ← readAmount k
    some (encode (mk amt data))
  | _ => none

/-- DATA, then AUX (`30_encoding.md` R69). -/
def asmDataAux (mk : DataSlot → AuxSlot → Instr) : List (List Char) → Option CmdWord
  | [d, a] => do
    let data ← readSlot 4 10 d
    let aux ← readSlot 4 10 a
    some (encode (mk data aux))
  | _ => none

/-- One KEY operand (`30_encoding.md` R69). -/
def asmKey (mk : KeySlot → Instr) : List (List Char) → Option CmdWord
  | [k] => (readSlot 5 20 k).map (fun key => encode (mk key))
  | _ => none

/-- KEY, then DATA (`30_encoding.md` R69). -/
def asmKeyData (mk : KeySlot → DataSlot → Instr) : List (List Char) → Option CmdWord
  | [k, d] => do
    let key ← readSlot 5 20 k
    let data ← readSlot 4 10 d
    some (encode (mk key data))
  | _ => none

/-- The triple cipher's two forms: the combined key, or the pseudo-instruction's two literals of exactly 10 characters each,
joined with mk1 first (`30_encoding.md` R70: an assembler "must refuse any other lengths"). -/
def asmTriple (mk : KeySlot → DataSlot → Instr) : List (List Char) → Option CmdWord
  | [mk1, mk2, d] =>
    if mk1.length = Config.keyBits ∧ mk2.length = Config.keyBits then asmKeyData mk [mk1 ++ mk2, d] else none
  | ops => asmKeyData mk ops

/-- A mnemonic with its operands (`30_encoding.md` R69, R70). -/
def assembleOperands (mnemonic : String) (ops : List (List Char)) : Option CmdWord :=
  match mnemonic with
  | "PERM_P10" => asmData .permP10 ops
  | "PERM_P8" => asmData .permP8 ops
  | "PERM_IP" => asmData .permIp ops
  | "PERM_IPINV" => asmData .permIpinv ops
  | "PERM_EP" => asmData .permEp ops
  | "PERM_P4" => asmData .permP4 ops
  | "ROTL" => asmDataAmount .rotl ops
  | "XOR" => asmDataAux .xor ops
  | "SPLIT" => asmData .split ops
  | "SWAP" => asmData .swap ops
  | "SBOX0" => asmData .sbox0 ops
  | "SBOX1" => asmData .sbox1 ops
  | "KSCHED" => asmKey .ksched ops
  | "ROUND" => asmDataAux .round ops
  | "ENC" => asmKeyData .enc ops
  | "DEC" => asmKeyData .dec ops
  | "ENC3" => asmTriple .enc3 ops
  | "DEC3" => asmTriple .dec3 ops
  | ".word" =>
    match ops with
    | [raw] => readRawWord raw
    | _ => none
  | _ => none

/-- One line of text as a command word: a mnemonic in capitals, a space, the operands (`30_encoding.md` R69); `none` for a
line that is no command. -/
def assemble (line : String) : Option CmdWord :=
  let cs := line.toList
  let mnemonic := cs.takeWhile (fun c => c != ' ')
  match cs.dropWhile (fun c => c != ' ') with
  | ' ' :: rest => assembleOperands (String.ofList mnemonic) (splitOperands rest)
  | _ => none

end Sys2Proof.Machine
end

