-- ==== Sys2Proof/Machine/Cores.lean ====
section
/-! DEFINITION. Several cores side by side (`60_exceptions.md` R195): independent copies of the one-core machine
(DESIGN CHOICE, log entry 11). -/

namespace Sys2Proof.Machine

/-- The state after one step of a core. A core that stopped would stay as it is; no core stops (`60_exceptions.md` R193). -/
def stepState (s : State) : State :=
  match step s with
  | .next t => t
  | .fault _ => s
  | .refused _ => s

/-- The state of a core after `n` steps of its own. -/
def stepTimes : Nat → State → State
  | 0, s => s
  | n + 1, s => stepTimes n (stepState s)

/-- One step of core number `k`; every other core stays as it is. -/
def stepCore (cores : List State) (k : Nat) : List State :=
  cores.modify k stepState

/-- The cores after an interleaving of their steps, given as the list of core numbers in the order they step. -/
def runInterleaved (schedule : List Nat) (cores : List State) : List State :=
  schedule.foldl stepCore cores

end Sys2Proof.Machine
end

