-- ==== Sys2Proof/Machine/Respond.lean ====
section
/-! DEFINITION. `respond(Tables, w)` of `30_encoding.md` R61, written from its five steps over the match and mask table, apart
from the decoder and the dispatch, which are stated to agree with it. -/

namespace Sys2Proof.Machine

/-- Step 4 of R61: the operation's own rule, by operation code, on the vectors K, D, A and the amount k. No row has
another code, so the last arm is never reached. -/
def evaluate (T : Tables) (op : BitVec 5) (K D A : Bits) (k : Nat) : Result :=
  match op.toNat with
  | 0x01 => rulePermP10 T D
  | 0x02 => rulePermP8 T D
  | 0x03 => rulePermIp T D
  | 0x04 => rulePermIpinv T D
  | 0x05 => rulePermEp T D
  | 0x06 => rulePermP4 T D
  | 0x07 => ruleRotl k D
  | 0x08 => ruleXor D A
  | 0x09 => ruleSplit D
  | 0x0A => ruleSwap D
  | 0x0B => ruleSbox0 T D
  | 0x0C => ruleSbox1 T D
  | 0x10 => ruleKsched T K
  | 0x11 => ruleRound T D A
  | 0x12 => ruleEnc T K D
  | 0x13 => ruleDec T K D
  | 0x14 => ruleEnc3 T K D
  | 0x15 => ruleDec3 T K D
  | _ => .error .invalidOp

/-- Steps 2 and 3 of R61 for one slot: a slot the row uses is checked and read; one it does not use carries nothing. -/
def usedVector {t w : Nat} (used : Bool) (s : Slot t w) : Result :=
  if used then slotVector s else .ok []

/-- The result of a word (R61 steps 1 to 4). -/
def respondResult (T : Tables) (w : CmdWord) : Result :=
  match rows.find? (fun r => r.selects w) with
  | none => .error .invalidOp
  | some r => do
    let f := Fields.ofWord w
    let K ← usedVector (r.uses.contains .key) f.key
    let D ← usedVector (r.uses.contains .data) f.data
    let A ← usedVector (r.uses.contains .aux) f.aux
    evaluate T r.op K D A (amount f.amt)

/-- `respond(Tables, w)`: the one response to each of the 2^64 words (`30_encoding.md` R61). -/
def respond (T : Tables) (w : CmdWord) : RespWord :=
  resultWord (respondResult T w)

/-- RESP after an event (`10_state.md` R24). -/
def respondEvent (T : Tables) : Event → RespWord
  | .command w => respond T w
  | .reset => 0x00000000

end Sys2Proof.Machine
end

