-- ==== Sys2Proof/Safety.lean ====
section
/-! DEFINITION. What claims say of a state and of a run: the legal contents of RESP, a step that answers a next state, and
the response after a run of events. -/

namespace Sys2Proof.Safety

open Sys2Proof.Machine

/-- The legal contents of RESP (`10_state.md` R22, `60_exceptions.md` R180, R187). -/
structure RespLegal (w : RespWord) : Prop where
  /-- Bits 27:21 are always 0000000. -/
  reserved : reservedOf w = 0
  /-- STAT is 0 to 5; 6 and 7 are never written. -/
  stat : (statOf w).toNat ≤ 5
  /-- RLEN is 0 to 16. -/
  rlen : (rlenOf w).toNat ≤ 16
  /-- RES is below 2^RLEN. -/
  res : (resOf w).toNat < 2 ^ (rlenOf w).toNat
  /-- RLEN and RES are 0 when STAT is not 0. -/
  noValueOnError : statOf w ≠ 0 → rlenOf w = 0 ∧ resOf w = 0
  /-- Before the first command RESP is zero: VALID = 0 tells the host that RESP describes no command. -/
  noCommand : validOf w = 0 → w = 0

/-- The invariant of the machine: RESP is legal. -/
def Inv (s : State) : Prop :=
  RespLegal s.resp

/-- The step answers a next state: no fault and no refusal. -/
def Completes (a : Answer) : Prop :=
  ∃ t, a = .next t

/-- RESP at the end of a run of events from `r` (`70_reset_and_hazards.md` R215): the response to the last event, or `r` where
there is none (`20_memory.md` R45). -/
def endResp (T : Tables) (r : RespWord) : List Event → RespWord
  | [] => r
  | [e] => respondEvent T e
  | _ :: e :: rest => endResp T r (e :: rest)

/-! ## Terms of the statements -/

/-- `max(T)`: the largest entry of an index table (`40_primitives.md`, Part 2). -/
def tableTop (t : IndexTable) : Nat :=
  t.foldl max 0

/-- The fourteen unassigned OP values (`30_encoding.md` R66). -/
def unassignedOps : List (BitVec 5) :=
  [0x00, 0x0D, 0x0E, 0x0F, 0x16, 0x17, 0x18, 0x19, 0x1A, 0x1B, 0x1C, 0x1D, 0x1E, 0x1F]

/-- A word is illegal when OP is unassigned, or bits 2:0 are not 000, or AMT is not 000 and the operation is not ROTL, or a
slot the operation does not use has a non-zero tag or field (`30_encoding.md` R66; usage by R63). -/
def IllegalWord (w : CmdWord) : Prop :=
  let op := w.extractLsb' 59 5
  op ∈ unassignedOps
    ∨ w.extractLsb' 0 3 ≠ 0
    ∨ (w.extractLsb' 56 3 ≠ 0 ∧ op ≠ 0x07)
    ∨ ((w.extractLsb' 51 5 ≠ 0 ∨ w.extractLsb' 31 20 ≠ 0) ∧ op ∉ [0x10, 0x12, 0x13, 0x14, 0x15])
    ∨ ((w.extractLsb' 27 4 ≠ 0 ∨ w.extractLsb' 17 10 ≠ 0) ∧ op = 0x10)
    ∨ ((w.extractLsb' 13 4 ≠ 0 ∨ w.extractLsb' 3 10 ≠ 0) ∧ op ∉ [0x08, 0x11])

/-- The operation code of an instruction (`30_encoding.md` R62). -/
def opOf (i : Instr) : BitVec 5 :=
  (encodeFields i).op

/-- A permutation operation, by table and result length, completes when its operand is long enough for the table: position i
of the result is position T[i] of the operand, and nothing but RESP changes (`40_primitives.md` R100, R110 to R115). -/
def PermCompletes (mk : DataSlot → Instr) (tab : Tables → IndexTable) (len : Nat) : Prop :=
  ∀ (s : State) (data : DataSlot) (D : Bits), slotVector data = .ok D → tableTop (tab s.tables) ≤ D.length →
    ∃ r : Bits, r.length = len
      ∧ (∀ i : Nat, i < len → r.position (i + 1) = ((tab s.tables)[i]?).bind D.position)
      ∧ exec (mk data) s = .next { s with resp := okWord r }

/-- A permutation operation raises INVALID_TABLE when its operand is shorter than the table's largest entry
(`60_exceptions.md` R186). -/
def PermRaises (mk : DataSlot → Instr) (tab : Tables → IndexTable) : Prop :=
  ∀ (s : State) (data : DataSlot) (D : Bits), slotVector data = .ok D → D.length < tableTop (tab s.tables) →
    exec (mk data) s = .next { s with resp := 0xD0000000 }

/-- An S-box operation looks its four bits up: row from the outer bits, column from the inner bits, the higher bit of the value
first, and nothing but RESP changes (`40_primitives.md` R105, R120, R121). -/
def SboxCompletes (mk : DataSlot → Instr) (box : Tables → SBox) : Prop :=
  ∀ (s : State) (data : DataSlot) (b1 b2 b3 b4 : Bool) (row col : Fin 4) (v : Nat),
    slotVector data = .ok [b1, b2, b3, b4] →
    row.val = 2 * b1.toNat + b4.toNat → col.val = 2 * b2.toNat + b3.toNat → v = (((box s.tables).get row).get col).val →
    exec (mk data) s = .next { s with resp := okWord [decide (2 ≤ v), decide (v % 2 = 1)] }

/-- An operation on DATA raises MALFORMED_INPUT when its operand has not `len` bits (`60_exceptions.md` R183). -/
def DataLengthRaises (mk : DataSlot → Instr) (len : Nat) : Prop :=
  ∀ (s : State) (data : DataSlot) (D : Bits), slotVector data = .ok D → D.length ≠ len →
    exec (mk data) s = .next { s with resp := 0xB0000000 }

/-- A cipher operation with a key of `keyLen` bits and an 8-bit block completes with the 8-bit value of `f`, and nothing but
RESP changes. -/
def CipherCompletes (mk : KeySlot → DataSlot → Instr) (keyLen : Nat) (f : Tables → Bits → Bits → Result) : Prop :=
  ∀ (s : State) (key : KeySlot) (data : DataSlot) (K D : Bits), slotVector key = .ok K → slotVector data = .ok D →
    K.length = keyLen → D.length = 8 →
    ∃ c : Bits, f s.tables K D = .ok c ∧ c.length = 8 ∧ exec (mk key data) s = .next { s with resp := okWord c }

/-- A cipher operation raises INVALID_INPUT for a key that has not `keyLen` bits, whatever the block, and MALFORMED_INPUT for
a block that has not 8 bits when the key is right (`60_exceptions.md` R182, R183, R188). -/
def CipherRaises (mk : KeySlot → DataSlot → Instr) (keyLen : Nat) : Prop :=
  ∀ (s : State) (key : KeySlot) (data : DataSlot) (K D : Bits), slotVector key = .ok K → slotVector data = .ok D →
    (K.length ≠ keyLen → exec (mk key data) s = .next { s with resp := 0xA0000000 })
    ∧ (K.length = keyLen → D.length ≠ 8 → exec (mk key data) s = .next { s with resp := 0xB0000000 })

/-- Executing `mk` and then `undo` with the same key on the block RESP shows gives back the block; both steps
write RESP only. -/
def CipherUndoes (mk undo : KeySlot → DataSlot → Instr) (keyLen : Nat) : Prop :=
  ∀ (s : State) (key : KeySlot) (data : DataSlot) (K D : Bits), slotVector key = .ok K → slotVector data = .ok D →
    K.length = keyLen → D.length = 8 →
    ∃ (t : State) (data' : DataSlot), exec (mk key data) s = .next t
      ∧ placeVector 4 10 (resultOf t.resp) = some data'
      ∧ exec (undo key data') t = .next { s with resp := okWord D }

end Sys2Proof.Safety
end

