-- ==== Sys2Proof/Certificates/Slice0/Obligations.lean ====
section
/-! DEFINITION. The statements for the provers. -/

open Sys2Proof Sys2Proof.Safety

/-! ## Encoding -/

/-- Decoding an encoded instruction gives it back, for every operand (`30_encoding.md` R60, R62, R63). -/
def Obligations.DecodeOfEncode : Prop :=
  ∀ i : Instr, decode (encode i) = .ok i

/-- A word that decodes is the encoding of what it decodes to, so no bit of a legal word is dropped (`30_encoding.md` R60, R62,
R63). -/
def Obligations.EncodeOfDecode : Prop :=
  ∀ (w : CmdWord) (i : Instr), decode w = .ok i → encode i = w

/-- The decoder reads a row's instruction exactly where the row's match and mask select the word, no two rows select one word,
and a word that selects no row is refused and ends with INVALID_OP (`30_encoding.md` R63, whose table `rows` holds). -/
def Obligations.RowsSelectWhatDecodes : Prop :=
  (∀ r ∈ rows, ∀ w : CmdWord, w &&& r.mask = r.pattern ↔ ∃ i, decode w = .ok i ∧ opOf i = r.op)
  ∧ (∀ r ∈ rows, ∀ q ∈ rows, ∀ w : CmdWord, w &&& r.mask = r.pattern → w &&& q.mask = q.pattern → r = q)
  ∧ (∀ w : CmdWord, (∀ r ∈ rows, w &&& r.mask ≠ r.pattern) → ∃ why, decode w = .error why
    ∧ ∀ s : Machine.State, Machine.illegalCommand why s = .next { s with resp := 0x90000000 })

/-- A word that R66 calls illegal is refused by the decoder, and the command then ends with INVALID_OP and changes nothing but
RESP; every other word decodes (`30_encoding.md` R66). -/
def Obligations.IllegalWordsRaiseInvalidOp : Prop :=
  (∀ w : CmdWord, IllegalWord w → ∃ why, decode w = .error why
    ∧ ∀ s : Machine.State, Machine.illegalCommand why s = .next { s with resp := 0x90000000 })
  ∧ (∀ w : CmdWord, ¬ IllegalWord w → ∃ i, decode w = .ok i)

/-- Words of the spec's examples decode to the commands they are printed for (`40_primitives.md` R110, R116, R117;
`41_key_schedule.md` R141; `42_round.md` R151; `43_single_cipher.md` R164; `44_triple_cipher.md` R174). -/
def Obligations.PrintedWordsDecode : Prop :=
  decode 0x0800000055040000 = .ok (.permP10 ⟨10, 0b1010000010⟩)
  ∧ decode 0x3F000000282C0000 = .ok (.rotl 7 ⟨5, 0b10110⟩)
  ∧ decode 0x40000000200F0520 = .ok (.xor ⟨4, 0b0111⟩ ⟨8, 0b10100100⟩)
  ∧ decode 0x8050014100000000 = .ok (.ksched ⟨10, 0b1010000010⟩)
  ∧ decode 0x8800000041530520 = .ok (.round ⟨8, 0b10101001⟩ ⟨8, 0b10100100⟩)
  ∧ decode 0x9050014140E40000 = .ok (.enc ⟨10, 0b1010000010⟩ ⟨8, 0b01110010⟩)
  ∧ decode 0xA8A504D741600000 = .ok (.dec3 ⟨20, 0b10100000100110101110⟩ ⟨8, 0b10110000⟩)

/-- A vector no longer than the field is placed with tag = its length, `v{p}` at bit L - p and zeros above, and reads back from
there; read the other way, a well-formed slot with tag L and field F carries the vector of length L with `v{p} = F[L-p]`
(`30_encoding.md` R64). -/
def Obligations.PlacedVectorReadsBack : Prop :=
  (∀ (t w : Nat) (v : Bits), w < 2 ^ t → v.length ≤ w →
    ∃ s : Slot t w, Machine.placeVector t w v = some s
      ∧ s.len.toNat = v.length
      ∧ (∀ p, 1 ≤ p → p ≤ v.length → v.position p = some (s.field.getLsbD (v.length - p)))
      ∧ (∀ j, v.length ≤ j → s.field.getLsbD j = false)
      ∧ Machine.slotVector s = .ok v)
  ∧ ∀ (t w : Nat) (s : Slot t w), s.len.toNat ≤ w → (∀ j, s.len.toNat ≤ j → s.field.getLsbD j = false) →
      ∃ v : Bits, Machine.slotVector s = .ok v ∧ v.length = s.len.toNat
        ∧ ∀ p, 1 ≤ p → p ≤ v.length → v.position p = some (s.field.getLsbD (s.len.toNat - p))

/-- A slot whose tag is above the width, or with a field bit set at or above the tag, denotes no vector: reading it gives
INVALID_INPUT (`30_encoding.md` R65). -/
def Obligations.IllFormedSlotDenotesNoVector : Prop :=
  ∀ (t w : Nat) (s : Slot t w),
    (w < s.len.toNat → Machine.slotVector s = .error .invalidInput)
    ∧ (∀ j, s.len.toNat ≤ j → s.field.getLsbD j = true → Machine.slotVector s = .error .invalidInput)

/-- A slot is well-formed when its tag is no greater than the width and every field bit at or above the tag is 0. An
instruction with a used slot that is not well-formed ends with INVALID_INPUT, whatever its lengths and whatever the tables:
before any length rule of the operation and before any table is applied; nothing but RESP changes (`30_encoding.md` R65). -/
def Obligations.IllFormedSlotRaisesInvalidInput : Prop :=
  (∀ (t w : Nat) (s : Slot t w),
    s.wf = true ↔ s.len.toNat ≤ w ∧ ∀ j, s.len.toNat ≤ j → s.field.getLsbD j = false)
  ∧ ∀ (i : Instr) (s : Machine.State), i.WellFormed = false → Machine.exec i s = .next { s with resp := 0xA0000000 }

/-! ## The step and the machine -/

/-- When the next pending command decodes, the step is the instruction's execution in the state with that command taken. (The
list of pending events is the model's own field, log entry 3.) -/
def Obligations.StepRunsDecodedCommand : Prop :=
  ∀ (s : Machine.State) (w : CmdWord) (rest : List Machine.Event) (i : Instr),
    s.pending = .command w :: rest → decode w = .ok i →
    Machine.step s = Machine.exec i { s with pending := rest }

/-- A command writes `respond(Tables, w)` to RESP, a reset writes zero, and with no event nothing changes (`10_state.md` R24,
`30_encoding.md` R61, `60_exceptions.md` R194). The tables and the pending events are the model's own fields (log entries 1
and 3). -/
def Obligations.StepWritesRespond : Prop :=
  (∀ (s : Machine.State) (w : CmdWord) (rest : List Machine.Event), s.pending = .command w :: rest →
    Machine.step s = .next { s with resp := Machine.respond s.tables w, pending := rest })
  ∧ (∀ (s : Machine.State) (rest : List Machine.Event), s.pending = .reset :: rest →
    Machine.step s = .next { s with resp := 0x00000000, pending := rest })
  ∧ (∀ s : Machine.State, s.pending = [] → Machine.step s = .next s)

/-- After the reset event RESP is zero, VALID, STAT, the reserved bits, RLEN and RES with it, and the tables are the same before
and after; the machine starts from that RESP (`10_state.md` R27). -/
def Obligations.ResetClearsResponse : Prop :=
  (∀ s : Machine.State, ∃ t, Machine.takeReset s = .next t ∧ t = { s with resp := 0x00000000 }
    ∧ Machine.validOf t.resp = 0 ∧ Machine.statOf t.resp = 0 ∧ Machine.reservedOf t.resp = 0
    ∧ Machine.rlenOf t.resp = 0 ∧ Machine.resOf t.resp = 0 ∧ t.tables = s.tables)
  ∧ Machine.State.reset.resp = 0x00000000

/-- Every step from every state answers a next state, and so does every instruction in every state: nothing is stuck, faults or
is refused (`60_exceptions.md` R193). -/
def Obligations.EveryStepCompletes : Prop :=
  (∀ s : Machine.State, Completes (Machine.step s)) ∧ ∀ (i : Instr) (s : Machine.State), Completes (Machine.exec i s)

/-- Every instruction, right or wrong, changes RESP and nothing else (`10_state.md` R22, R25; `60_exceptions.md` R187). -/
def Obligations.InstructionsWriteResponseOnly : Prop :=
  ∀ (i : Instr) (s : Machine.State), ∃ w : RespWord, Machine.exec i s = .next { s with resp := w }

/-- No event changes the tables, and a step takes exactly the oldest pending event (`10_state.md` R25, `20_memory.md` R45, R47,
`70_reset_and_hazards.md` R211; both fields are the model's own, log entries 1 and 3). -/
def Obligations.StepKeepsTables : Prop :=
  ∀ s t : Machine.State, Machine.step s = .next t → t.built = s.built ∧ t.pending = s.pending.tail

/-- The response to an event depends on the event and the tables alone: two cores with the same tables, whatever their RESP and
whatever came before or comes after, give the same RESP (`10_state.md` R28, which the spec marks as derived from R10 and R24). -/
def Obligations.ResponsesAreStateless : Prop :=
  ∀ (s1 s2 : Machine.State) (e : Machine.Event) (rest1 rest2 : List Machine.Event),
    s1.built = s2.built → s1.pending = e :: rest1 → s2.pending = e :: rest2 →
    ∃ t1 t2, Machine.step s1 = .next t1 ∧ Machine.step s2 = .next t2 ∧ t1.resp = t2.resp

/-- RESP stays legal: reserved bits zero, STAT at most 5, RLEN at most 16, RES below 2^RLEN, no value with an error, and zero
while VALID is 0 (`10_state.md` R22, `60_exceptions.md` R180, R187). -/
def Obligations.StepKeepsResponseLegal : Prop :=
  ∀ s t : Machine.State, Inv s → Machine.step s = .next t → Inv t

/-- The machine starts with a legal RESP. -/
def Obligations.ResetResponseLegal : Prop :=
  Inv Machine.State.reset

/-- After any command RESP is legal and VALID, whatever RESP held before (`10_state.md` R22, `60_exceptions.md` R180). -/
def Obligations.CommandLeavesValidResponse : Prop :=
  ∀ (s t : Machine.State) (w : CmdWord) (rest : List Machine.Event), s.pending = .command w :: rest →
    Machine.step s = .next t → RespLegal t.resp ∧ Machine.validOf t.resp = 1

/-- After a run of events RESP is the response to the last of them and nothing of any earlier one, and no event is left
(`20_memory.md` R45, `70_reset_and_hazards.md` R215; the list of events is the model's own field, log entry 3). -/
def Obligations.RunEndsWithLastResponse : Prop :=
  ∀ (events : List Machine.Event) (s : Machine.State), s.pending = events →
    Host.Core.run core events.length s
      = .next { s with resp := endResp s.tables s.resp events, pending := [] }

/-- Any interleaving of several cores' steps leaves each core as running its own steps alone does (`60_exceptions.md` R195, in a
sentence the spec marks as derived from R28; the list of cores and the schedule of their steps are the model's own form,
DESIGN CHOICE, log entry 11). -/
def Obligations.InterleavedCoresAreIndependent : Prop :=
  ∀ (schedule : List Nat) (cores : List Machine.State) (k : Nat),
    (Machine.runInterleaved schedule cores)[k]? = cores[k]?.map (Machine.stepTimes (schedule.count k))

/-- A command placed by the host's convention is what the next step runs, in the state it was placed in (the model's own
convention, log entry 6). -/
def Obligations.PlacedCommandRunsNext : Prop :=
  ∀ (s : Machine.State) (nbits w : Nat) (i : Instr), decodeTableWord nbits w = some i →
    Machine.step (s.withFetchWord nbits w) = Machine.exec i s

/-! ## The response register -/

/-- A result of at most 16 bits is packed with VALID = 1, STAT = 000, reserved = 0, RLEN = its length and `r{p}` at bit
RLEN - p of RES, zeros above, and RESP shows it again (`30_encoding.md` R68, `10_state.md` R22). -/
def Obligations.PackedResultReadsBack : Prop :=
  ∀ r : Bits, r.length ≤ 16 →
    Machine.validOf (Machine.okWord r) = 1 ∧ Machine.statOf (Machine.okWord r) = 0
    ∧ Machine.reservedOf (Machine.okWord r) = 0
    ∧ (Machine.rlenOf (Machine.okWord r)).toNat = r.length
    ∧ (∀ p, 1 ≤ p → p ≤ r.length → r.position p = some ((Machine.resOf (Machine.okWord r)).getLsbD (r.length - p)))
    ∧ (∀ j, r.length ≤ j → (Machine.resOf (Machine.okWord r)).getLsbD j = false)
    ∧ Machine.resultOf (Machine.okWord r) = r

/-- Raising an error writes its 32-bit value to RESP and does nothing else (`60_exceptions.md` R187). -/
def Obligations.RaiseWritesErrorWord : Prop :=
  ∀ s : Machine.State,
    Machine.raise .invalidOp s = { s with resp := 0x90000000 }
    ∧ Machine.raise .invalidInput s = { s with resp := 0xA0000000 }
    ∧ Machine.raise .malformedInput s = { s with resp := 0xB0000000 }
    ∧ Machine.raise .lengthMismatch s = { s with resp := 0xC0000000 }
    ∧ Machine.raise .invalidTable s = { s with resp := 0xD0000000 }

/-- Which operation can end with which status (`60_exceptions.md` R181 to R186 and the table after R186): decoded instructions
never end with INVALID_OP; INVALID_INPUT needs an ill-formed slot or an operation with a key; MALFORMED_INPUT belongs to
SPLIT, SWAP, SBOX0, SBOX1, ROUND and the ciphers; LENGTH_MISMATCH to XOR and ROUND; INVALID_TABLE to the permutations. -/
def Obligations.StatusesBelongToOperations : Prop :=
  ∀ (i : Instr) (s t : Machine.State), Machine.exec i s = .next t →
    Machine.statOf t.resp ≠ 1
    ∧ (Machine.statOf t.resp = 2 → i.WellFormed = false ∨ opOf i ∈ [0x10, 0x12, 0x13, 0x14, 0x15])
    ∧ (Machine.statOf t.resp = 3 → opOf i ∈ [0x09, 0x0A, 0x0B, 0x0C, 0x11, 0x12, 0x13, 0x14, 0x15])
    ∧ (Machine.statOf t.resp = 4 → opOf i ∈ [0x08, 0x11])
    ∧ (Machine.statOf t.resp = 5 → opOf i ∈ [0x01, 0x02, 0x03, 0x04, 0x05, 0x06])

/-! ## The function layer -/

/-- `permute` gathers: position i of the output is position T[i] of the input, the output is as long as the table, longer
inputs are accepted; an entry above the input's length or below 1 gives INVALID_TABLE (`40_primitives.md` R100). -/
def Obligations.PermuteGathersPositions : Prop :=
  ∀ (x : Bits) (T : IndexTable),
    ((∀ e ∈ T, 1 ≤ e ∧ e ≤ x.length) →
      ∃ y : Bits, Machine.permute x T = .ok y ∧ y.length = T.length
        ∧ ∀ i : Nat, i < T.length → y.position (i + 1) = T[i]?.bind x.position)
    ∧ ((∃ e ∈ T, e < 1 ∨ x.length < e) → Machine.permute x T = .error .invalidTable)

/-- `rotateLeft`: the result has the vector's length, `y{p} = x{((p - 1 + k) mod n) + 1}`, and the empty vector stays empty; it
never fails, being a function to vectors (`40_primitives.md` R101). -/
def Obligations.RotateLeftFollowsFormula : Prop :=
  (∀ (x : Bits) (k p : Nat), 1 ≤ p → p ≤ x.length →
    (Machine.rotateLeft x k).position p = x.position ((p - 1 + k) % x.length + 1))
  ∧ (∀ (x : Bits) (k : Nat), (Machine.rotateLeft x k).length = x.length)
  ∧ (∀ k : Nat, Machine.rotateLeft [] k = [])

/-- Rotation by 0 and by the width is the identity, the amount counts modulo the length, and rotations add up
(`40_primitives.md` R101, consequences the spec marks as derived from the formula). -/
def Obligations.RotationsAddUp : Prop :=
  (∀ x : Bits, Machine.rotateLeft x 0 = x ∧ Machine.rotateLeft x x.length = x)
  ∧ (∀ (x : Bits) (k : Nat), Machine.rotateLeft x k = Machine.rotateLeft x (k % x.length))
  ∧ (∀ (x : Bits) (a b : Nat), Machine.rotateLeft (Machine.rotateLeft x a) b = Machine.rotateLeft x (a + b))

/-- `xor` is elementwise on equal lengths, the empty vectors among them, and LENGTH_MISMATCH otherwise
(`40_primitives.md` R102). -/
def Obligations.XorIsElementwise : Prop :=
  (∀ a b : Bits, a.length = b.length →
    ∃ y : Bits, Machine.xor a b = .ok y ∧ y.length = a.length
      ∧ ∀ p, y.position p = (a.position p).bind fun u => (b.position p).map fun v => Bool.xor u v)
  ∧ (∀ a b : Bits, a.length ≠ b.length → Machine.xor a b = .error .lengthMismatch)

/-- `xor` commutes, adding the same vector twice cancels, and a vector added to itself is all zeros (`40_primitives.md` R102,
consequences the spec marks as derived from the truth table). -/
def Obligations.XorCommutesAndCancels : Prop :=
  (∀ a b : Bits, Machine.xor a b = Machine.xor b a)
  ∧ (∀ a b : Bits, a.length = b.length → ∃ y : Bits, Machine.xor a b = .ok y ∧ Machine.xor y b = .ok a)
  ∧ (∀ a : Bits, Machine.xor a a = .ok (List.replicate a.length false))

/-- `splitHalves` and `swapHalves` on eight bits, and MALFORMED_INPUT for every other length (`40_primitives.md` R103,
R104). -/
def Obligations.HalvesSplitAndSwap : Prop :=
  (∀ a b c d e f g h : Bool,
    Machine.splitHalves [a, b, c, d, e, f, g, h] = .ok ([a, b, c, d], [e, f, g, h])
    ∧ Machine.swapHalves [a, b, c, d, e, f, g, h] = .ok [e, f, g, h, a, b, c, d])
  ∧ (∀ x : Bits, x.length ≠ 8 →
    Machine.splitHalves x = .error .malformedInput ∧ Machine.swapHalves x = .error .malformedInput)

/-- Swapping the halves twice restores every 8-bit vector (`40_primitives.md` R104, a consequence the spec marks as derived). -/
def Obligations.SwapTwiceRestoresVector : Prop :=
  ∀ x : Bits, x.length = 8 → ∃ y : Bits, Machine.swapHalves x = .ok y ∧ Machine.swapHalves y = .ok x

/-- `sBoxLookup`: the outer bits give the row, the inner bits the column, the stored value's higher bit comes first; any other
length is MALFORMED_INPUT (`40_primitives.md` R105). -/
def Obligations.SBoxLooksUpRowAndColumn : Prop :=
  (∀ (S : SBox) (b1 b2 b3 b4 : Bool) (row col : Fin 4),
    row.val = 2 * b1.toNat + b4.toNat → col.val = 2 * b2.toNat + b3.toNat →
    Machine.sBoxLookup [b1, b2, b3, b4] S
      = .ok [decide (2 ≤ ((S.get row).get col).val), decide (((S.get row).get col).val % 2 = 1)])
  ∧ (∀ (S : SBox) (b : Bits), b.length ≠ 4 → Machine.sBoxLookup b S = .error .malformedInput)

/-- `keySchedule`: P10, each half rotated by 1 and P8 for SK1, each half of P10's output rotated by 3 in all and P8 for SK2;
a key that has not 10 bits gives INVALID_INPUT (`41_key_schedule.md` R140). -/
def Obligations.KeyScheduleRotatesByOneAndThree : Prop :=
  ∀ (T : Tables) (k : Bits), T.WF →
    (k.length = 10 → ∃ p SK1 SK2 : Bits,
      Machine.permute k T.p10 = .ok p
      ∧ Machine.permute (Machine.rotateLeft (p.take 5) 1 ++ Machine.rotateLeft (p.drop 5) 1) T.p8 = .ok SK1
      ∧ Machine.permute (Machine.rotateLeft (p.take 5) 3 ++ Machine.rotateLeft (p.drop 5) 3) T.p8 = .ok SK2
      ∧ SK1.length = 8 ∧ SK2.length = 8
      ∧ Machine.keySchedule T k = .ok (SK1, SK2))
    ∧ (k.length ≠ 10 → Machine.keySchedule T k = .error .invalidInput)

/-- A key of ten equal bits has two subkeys of eight such bits, with any well-formed tables
(`41_key_schedule.md` R141, which the spec marks as derived from R100 and R101). -/
def Obligations.ConstantKeyGivesConstantSubkeys : Prop :=
  ∀ (T : Tables) (b : Bool), T.WF →
    Machine.keySchedule T (List.replicate 10 b) = .ok (List.replicate 8 b, List.replicate 8 b)

/-- `round` step by step, its right half unchanged and in place; a state that has not 8 bits gives MALFORMED_INPUT, and then a
subkey that has not 8 bits LENGTH_MISMATCH (`42_round.md` R150). -/
def Obligations.RoundFollowsItsSteps : Prop :=
  ∀ (T : Tables) (st sk : Bits), T.WF →
    (st.length = 8 → sk.length = 8 → ∃ e tl tr u0 u1 v Lnew : Bits,
      Machine.permute (st.drop 4) T.ep = .ok e
      ∧ Machine.xor e sk = .ok (tl ++ tr) ∧ tl.length = 4 ∧ tr.length = 4
      ∧ Machine.sBoxLookup tl T.s0 = .ok u0 ∧ Machine.sBoxLookup tr T.s1 = .ok u1
      ∧ Machine.permute (u0 ++ u1) T.p4 = .ok v
      ∧ Machine.xor v (st.take 4) = .ok Lnew ∧ Lnew.length = 4
      ∧ Machine.round T st sk = .ok (Lnew ++ st.drop 4))
    ∧ (st.length ≠ 8 → Machine.round T st sk = .error .malformedInput)
    ∧ (st.length = 8 → sk.length ≠ 8 → Machine.round T st sk = .error .lengthMismatch)

/-- The round is its own inverse, for any well-formed tables (`42_round.md` R152, which the spec marks as derived from R150). -/
def Obligations.RoundTwiceRestoresState : Prop :=
  ∀ (T : Tables) (st sk : Bits), T.WF → st.length = 8 → sk.length = 8 →
    ∃ r : Bits, Machine.round T st sk = .ok r ∧ r.length = 8 ∧ Machine.round T r sk = .ok st

/-- IP and IPINV undo each other on every 8-bit block, for any well-formed tables (`40_primitives.md` R113, which the spec
marks as derived from WF, R6). -/
def Obligations.InitialPermutationsAreInverse : Prop :=
  ∀ (T : Tables) (x : Bits), T.WF → x.length = 8 →
    (∃ y : Bits, Machine.permute x T.ip = .ok y ∧ Machine.permute y T.ipinv = .ok x)
    ∧ ∃ y : Bits, Machine.permute x T.ipinv = .ok y ∧ Machine.permute y T.ip = .ok x

/-- `encrypt` and `decrypt` step by step: IP, a round, one swap, a round, IPINV, with SK1 first to encrypt and SK2 first to
decrypt; with both lengths right no step fails (`43_single_cipher.md` R160, R161). -/
def Obligations.CipherFollowsItsSteps : Prop :=
  ∀ (T : Tables) (k x : Bits), T.WF → k.length = 10 → x.length = 8 →
    ∃ SK1 SK2 : Bits, Machine.keySchedule T k = .ok (SK1, SK2)
      ∧ (∃ s0 s1 s2 s3 c : Bits, Machine.permute x T.ip = .ok s0 ∧ Machine.round T s0 SK1 = .ok s1
        ∧ Machine.swapHalves s1 = .ok s2 ∧ Machine.round T s2 SK2 = .ok s3 ∧ Machine.permute s3 T.ipinv = .ok c
        ∧ Machine.encrypt T k x = .ok c ∧ c.length = 8)
      ∧ ∃ s0 s1 s2 s3 p : Bits, Machine.permute x T.ip = .ok s0 ∧ Machine.round T s0 SK2 = .ok s1
        ∧ Machine.swapHalves s1 = .ok s2 ∧ Machine.round T s2 SK1 = .ok s3 ∧ Machine.permute s3 T.ipinv = .ok p
        ∧ Machine.decrypt T k x = .ok p ∧ p.length = 8

/-- Lengths at the single cipher: a key that has not 10 bits gives INVALID_INPUT whatever the block, and with a right key a
block that has not 8 bits gives MALFORMED_INPUT, with any tables (`43_single_cipher.md` R162, R163). -/
def Obligations.SingleCipherChecksLengths : Prop :=
  ∀ (T : Tables) (k x : Bits),
    (k.length ≠ 10 → Machine.encrypt T k x = .error .invalidInput ∧ Machine.decrypt T k x = .error .invalidInput)
    ∧ (k.length = 10 → x.length ≠ 8 →
      Machine.encrypt T k x = .error .malformedInput ∧ Machine.decrypt T k x = .error .malformedInput)

/-- Lengths at the triple cipher: `encrypt3` needs two keys of 10 bits and `decrypt3` one of 20, else INVALID_INPUT whatever
the block, and with right keys a block that has not 8 bits gives MALFORMED_INPUT, with any tables (`44_triple_cipher.md`
R170, R171, R172). -/
def Obligations.TripleCipherChecksLengths : Prop :=
  ∀ (T : Tables) (MK1 MK2 CK x : Bits),
    (MK1.length ≠ 10 ∨ MK2.length ≠ 10 → Machine.encrypt3 T MK1 MK2 x = .error .invalidInput)
    ∧ (MK1.length = 10 → MK2.length = 10 → x.length ≠ 8 → Machine.encrypt3 T MK1 MK2 x = .error .malformedInput)
    ∧ (CK.length ≠ 20 → Machine.decrypt3 T CK x = .error .invalidInput)
    ∧ (CK.length = 20 → x.length ≠ 8 → Machine.decrypt3 T CK x = .error .malformedInput)

/-- `decrypt(k, encrypt(k, p)) = p` and `encrypt(k, decrypt(k, c)) = c` for all 10-bit keys and 8-bit inputs and any well-formed
tables (`43_single_cipher.md` R166, which the spec marks as derived from R160 and R161). -/
def Obligations.SingleCipherRoundTrip : Prop :=
  ∀ (T : Tables) (k x : Bits), T.WF → k.length = 10 → x.length = 8 →
    (∃ c : Bits, Machine.encrypt T k x = .ok c ∧ Machine.decrypt T k c = .ok x)
    ∧ ∃ p : Bits, Machine.decrypt T k x = .ok p ∧ Machine.encrypt T k p = .ok x

/-- `encrypt3` is encrypt under MK1, decrypt under MK2, encrypt under MK1, and `decrypt3` is decrypt, encrypt, decrypt in the same
placing of the keys (`44_triple_cipher.md` R170, R171). -/
def Obligations.TripleCipherComposes : Prop :=
  ∀ (T : Tables) (MK1 MK2 x : Bits), T.WF → MK1.length = 10 → MK2.length = 10 → x.length = 8 →
    (∃ a b c : Bits, Machine.encrypt T MK1 x = .ok a ∧ Machine.decrypt T MK2 a = .ok b ∧ Machine.encrypt T MK1 b = .ok c
      ∧ Machine.encrypt3 T MK1 MK2 x = .ok c ∧ c.length = 8)
    ∧ ∃ a b p : Bits, Machine.decrypt T MK1 x = .ok a ∧ Machine.encrypt T MK2 a = .ok b ∧ Machine.decrypt T MK1 b = .ok p
      ∧ Machine.decrypt3 T (MK1 ++ MK2) x = .ok p ∧ p.length = 8

/-- `decrypt3(MK1 ‖ MK2, encrypt3(MK1, MK2, p)) = p` and the converse, for all key pairs and 8-bit inputs and any well-formed
tables (`44_triple_cipher.md` R175, which the spec marks as derived from R170 and R171). -/
def Obligations.TripleCipherRoundTrip : Prop :=
  ∀ (T : Tables) (MK1 MK2 x : Bits), T.WF → MK1.length = 10 → MK2.length = 10 → x.length = 8 →
    (∃ c : Bits, Machine.encrypt3 T MK1 MK2 x = .ok c ∧ Machine.decrypt3 T (MK1 ++ MK2) c = .ok x)
    ∧ ∃ p : Bits, Machine.decrypt3 T (MK1 ++ MK2) x = .ok p ∧ Machine.encrypt3 T MK1 MK2 p = .ok x

/-- With equal keys the triple cipher is the single cipher (`44_triple_cipher.md` R176, which the spec marks as derived from R170
and R166). -/
def Obligations.EqualKeysGiveSingleCipher : Prop :=
  ∀ (T : Tables) (k x : Bits), T.WF → k.length = 10 → x.length = 8 →
    Machine.encrypt3 T k k x = Machine.encrypt T k x ∧ Machine.decrypt3 T (k ++ k) x = Machine.decrypt T k x

/-! ## The operations: where each completes, and where it raises an error -/

/-- The six permutation operations complete when the operand is long enough for the table (`40_primitives.md` R110 to R115). -/
def Obligations.PermutationsComplete : Prop :=
  PermCompletes .permP10 (·.p10) 10 ∧ PermCompletes .permP8 (·.p8) 8 ∧ PermCompletes .permIp (·.ip) 8
  ∧ PermCompletes .permIpinv (·.ipinv) 8 ∧ PermCompletes .permEp (·.ep) 8 ∧ PermCompletes .permP4 (·.p4) 4

/-- The six permutation operations raise INVALID_TABLE when DLEN is below the table's largest entry, which is 8 for IP and
IPINV with every well-formed tables (`60_exceptions.md` R186; `40_primitives.md` R112, R113). -/
def Obligations.ShortOperandRaisesInvalidTable : Prop :=
  (PermRaises .permP10 (·.p10) ∧ PermRaises .permP8 (·.p8) ∧ PermRaises .permIp (·.ip)
    ∧ PermRaises .permIpinv (·.ipinv) ∧ PermRaises .permEp (·.ep) ∧ PermRaises .permP4 (·.p4))
  ∧ ∀ T : Tables, T.WF → tableTop T.ip = 8 ∧ tableTop T.ipinv = 8

/-- ROTL completes on every operand and every amount: `r{p} = D{((p - 1 + k) mod DLEN) + 1}` (`40_primitives.md` R116). -/
def Obligations.RotateLeftCompletes : Prop :=
  ∀ (s : Machine.State) (amt : BitVec 3) (data : DataSlot) (D : Bits), Machine.slotVector data = .ok D →
    ∃ r : Bits, r.length = D.length
      ∧ (∀ p, 1 ≤ p → p ≤ D.length → r.position p = D.position ((p - 1 + amt.toNat) % D.length + 1))
      ∧ Machine.exec (.rotl amt data) s = .next { s with resp := Machine.okWord r }

/-- XOR completes on operands of equal length, the empty ones among them, elementwise, and raises LENGTH_MISMATCH on others
(`40_primitives.md` R117, `60_exceptions.md` R184). -/
def Obligations.XorCompletesOnEqualLengths : Prop :=
  ∀ (s : Machine.State) (data : DataSlot) (aux : AuxSlot) (D A : Bits),
    Machine.slotVector data = .ok D → Machine.slotVector aux = .ok A →
    (D.length = A.length → ∃ r : Bits, r.length = D.length
      ∧ (∀ p, r.position p = (D.position p).bind fun u => (A.position p).map fun v => Bool.xor u v)
      ∧ Machine.exec (.xor data aux) s = .next { s with resp := Machine.okWord r })
    ∧ (D.length ≠ A.length → Machine.exec (.xor data aux) s = .next { s with resp := 0xC0000000 })

/-- SPLIT and SWAP complete on 8 bits: SPLIT answers left half then right half, which is its operand, and SWAP right half then
left half; any other length raises MALFORMED_INPUT (`40_primitives.md` R118, R119; `60_exceptions.md` R183). -/
def Obligations.SplitAndSwapComplete : Prop :=
  (∀ (s : Machine.State) (data : DataSlot) (D : Bits), Machine.slotVector data = .ok D → D.length = 8 →
    Machine.exec (.split data) s = .next { s with resp := Machine.okWord D }
    ∧ Machine.exec (.swap data) s = .next { s with resp := Machine.okWord (D.drop 4 ++ D.take 4) })
  ∧ DataLengthRaises .split 8 ∧ DataLengthRaises .swap 8

/-- SBOX0 and SBOX1 complete on 4 bits with the entry of their own table, and raise MALFORMED_INPUT on other lengths
(`40_primitives.md` R120, R121; `60_exceptions.md` R183). -/
def Obligations.SboxesComplete : Prop :=
  SboxCompletes .sbox0 (·.s0) ∧ SboxCompletes .sbox1 (·.s1) ∧ DataLengthRaises .sbox0 4 ∧ DataLengthRaises .sbox1 4

/-- KSCHED completes on a 10-bit key with SK1 in RES[15:8] and SK2 in RES[7:0], RLEN = 16, and raises INVALID_INPUT on every
other key length (`41_key_schedule.md` R141, `60_exceptions.md` R182). -/
def Obligations.KeyScheduleCompletes : Prop :=
  ∀ (s : Machine.State) (key : KeySlot) (K : Bits), Machine.slotVector key = .ok K →
    (K.length = 10 → ∃ SK1 SK2 : Bits, Machine.keySchedule s.tables K = .ok (SK1, SK2)
      ∧ SK1.length = 8 ∧ SK2.length = 8
      ∧ Machine.rlenOf (Machine.okWord (SK1 ++ SK2)) = 16
      ∧ (Machine.resOf (Machine.okWord (SK1 ++ SK2))).extractLsb' 8 8 = BitVec.ofNat 8 (Machine.val SK1)
      ∧ (Machine.resOf (Machine.okWord (SK1 ++ SK2))).extractLsb' 0 8 = BitVec.ofNat 8 (Machine.val SK2)
      ∧ Machine.exec (.ksched key) s = .next { s with resp := Machine.okWord (SK1 ++ SK2) })
    ∧ (K.length ≠ 10 → Machine.exec (.ksched key) s = .next { s with resp := 0xA0000000 })

/-- ROUND completes on an 8-bit state and an 8-bit subkey, the low four bits of the result those of the state; a wrong state
length raises MALFORMED_INPUT, and with a right state a wrong subkey length LENGTH_MISMATCH (`42_round.md` R151,
`60_exceptions.md` R183, R184, R188). -/
def Obligations.RoundCompletes : Prop :=
  ∀ (s : Machine.State) (data : DataSlot) (aux : AuxSlot) (D A : Bits),
    Machine.slotVector data = .ok D → Machine.slotVector aux = .ok A →
    (D.length = 8 → A.length = 8 → ∃ r : Bits, Machine.round s.tables D A = .ok r ∧ r.length = 8 ∧ r.drop 4 = D.drop 4
      ∧ Machine.exec (.round data aux) s = .next { s with resp := Machine.okWord r })
    ∧ (D.length ≠ 8 → Machine.exec (.round data aux) s = .next { s with resp := 0xB0000000 })
    ∧ (D.length = 8 → A.length ≠ 8 → Machine.exec (.round data aux) s = .next { s with resp := 0xC0000000 })

/-- ENC and DEC complete on a 10-bit key and an 8-bit block with the value of `encrypt` and `decrypt`
(`43_single_cipher.md` R164, R165). -/
def Obligations.SingleCipherCommandsComplete : Prop :=
  CipherCompletes .enc 10 Machine.encrypt ∧ CipherCompletes .dec 10 Machine.decrypt

/-- ENC3 and DEC3 complete on a 20-bit combined key and an 8-bit block, ENC3 with the key split 10 and 10
(`44_triple_cipher.md` R173, R174). -/
def Obligations.TripleCipherCommandsComplete : Prop :=
  CipherCompletes .enc3 20 (fun T K D => Machine.encrypt3 T (K.take 10) (K.drop 10) D)
  ∧ CipherCompletes .dec3 20 Machine.decrypt3

/-- The four cipher operations test the key's length before the block's: INVALID_INPUT, then MALFORMED_INPUT
(`43_single_cipher.md` R164, R165; `44_triple_cipher.md` R173, R174; `60_exceptions.md` R188). -/
def Obligations.CipherCommandsCheckLengths : Prop :=
  CipherRaises .enc 10 ∧ CipherRaises .dec 10 ∧ CipherRaises .enc3 20 ∧ CipherRaises .dec3 20

/-- On the machine: ENC and then DEC with the same key, on the block RESP shows, restores the block, and so do DEC then ENC,
ENC3 then DEC3 and DEC3 then ENC3, with every well-formed tables (`43_single_cipher.md` R166, `44_triple_cipher.md` R175,
both marked as derived by the spec). -/
def Obligations.CipherCommandsUndoEachOther : Prop :=
  CipherUndoes .enc .dec 10 ∧ CipherUndoes .dec .enc 10 ∧ CipherUndoes .enc3 .dec3 20 ∧ CipherUndoes .dec3 .enc3 20

/-! ## The assembler -/

/-- The literal of a vector reads back as the vector, and it can be placed in a slot exactly when it is no longer than the
slot's field (`30_encoding.md` R69). -/
def Obligations.LiteralsReadBack : Prop :=
  (∀ v : Bits, Machine.readLiteral (Machine.writeLiteral v) = some v)
  ∧ (∀ v : Bits, 20 < v.length → Machine.readSlot 5 20 (Machine.writeLiteral v) = none)
  ∧ (∀ v : Bits, 10 < v.length → Machine.readSlot 4 10 (Machine.writeLiteral v) = none)
  ∧ (∀ v : Bits, v.length ≤ 20 →
    ∃ s, Machine.readSlot 5 20 (Machine.writeLiteral v) = some s ∧ Machine.slotVector s = .ok v)
  ∧ (∀ v : Bits, v.length ≤ 10 →
    ∃ s, Machine.readSlot 4 10 (Machine.writeLiteral v) = some s ∧ Machine.slotVector s = .ok v)

/-- The three-operand ENC3 and DEC3 expand to the joined key, mk1 first, for two keys of exactly 10 characters, and are refused
for any other lengths; no other mnemonic has a three-operand form (`30_encoding.md` R70). -/
def Obligations.PseudoInstructionsJoinKeys : Prop :=
  (∀ mk1 mk2 d : List Char, mk1.length = 10 → mk2.length = 10 →
    Machine.assembleOperands "ENC3" [mk1, mk2, d] = Machine.assembleOperands "ENC3" [mk1 ++ mk2, d]
    ∧ Machine.assembleOperands "DEC3" [mk1, mk2, d] = Machine.assembleOperands "DEC3" [mk1 ++ mk2, d])
  ∧ (∀ mk1 mk2 d : List Char, mk1.length ≠ 10 ∨ mk2.length ≠ 10 →
    Machine.assembleOperands "ENC3" [mk1, mk2, d] = none ∧ Machine.assembleOperands "DEC3" [mk1, mk2, d] = none)
  ∧ (∀ (mnemonic : String) (mk1 mk2 d : List Char), mnemonic ≠ "ENC3" → mnemonic ≠ "DEC3" →
    Machine.assembleOperands mnemonic [mk1, mk2, d] = none)

/-- The spec's example lines assemble to the words it prints for them (`30_encoding.md` R69). -/
def Obligations.PrintedLinesAssemble : Prop :=
  Machine.assemble "ENC 1010000010, 01110010" = some 0x9050014140E40000
  ∧ Machine.assemble "ROTL 10110, 7" = some 0x3F000000282C0000
  ∧ Machine.assemble "PERM_P4 e" = some 0x3000000000000000
  ∧ Machine.assemble ".word 0x8800000038A8E290" = some 0x8800000038A8E290
end

