-- ==== Sys2Proof/Laws/Encoding.lean ====
section
/-! SUPPORT. The fields of a word and the word of fields are inverse to each other. -/

namespace Sys2Proof

/-- A slice of a concatenation above its low part is a slice of the high part. -/
theorem extract_append_high {m n : Nat} (a : BitVec m) (b : BitVec n) (start len : Nat) (h : n ≤ start) :
    (a ++ b).extractLsb' start len = a.extractLsb' (start - n) len := by
  apply BitVec.eq_of_getLsbD_eq
  intro i hi
  simp only [BitVec.getLsbD_extractLsb', BitVec.getLsbD_append]
  simp [hi, show ¬ (start + i < n) by omega, show start + i - n = start - n + i by omega]

/-- A slice of exactly the low part of a concatenation is that part. -/
theorem extract_append_low {m n : Nat} (a : BitVec m) (b : BitVec n) : (a ++ b).extractLsb' 0 n = b := by
  apply BitVec.eq_of_getLsbD_eq
  intro i hi
  simp only [BitVec.getLsbD_extractLsb', BitVec.getLsbD_append]
  simp [hi]

/-- A slice of everything is the vector itself. -/
theorem extract_all {n : Nat} (a : BitVec n) : a.extractLsb' 0 n = a := by
  apply BitVec.eq_of_getLsbD_eq
  intro i hi
  simp [hi]

/-- The fields of the word made of fields are those fields. -/
theorem fields_of_toWord (f : Fields) : Fields.ofWord f.toWord = f := by
  obtain ⟨op, amt, ⟨kl, kf⟩, ⟨dl, df⟩, ⟨al, af⟩, rsv⟩ := f
  simp only [Fields.ofWord, Fields.toWord]
  simp only [extract_append_high, extract_append_low, extract_all, Nat.reduceSub, Nat.reduceLeDiff]

/-- Two neighbouring slices join to one. -/
theorem extract_join {n : Nat} (w : BitVec n) (a b c len₁ len₂ : Nat) (h : b = a + len₂) (hc : c = len₁ + len₂) :
    w.extractLsb' b len₁ ++ w.extractLsb' a len₂ = (w.extractLsb' a c).cast hc := by
  subst h hc
  apply BitVec.eq_of_getLsbD_eq
  intro i hi
  simp only [BitVec.getLsbD_append, BitVec.getLsbD_extractLsb', BitVec.getLsbD_cast]
  by_cases h : i < len₂
  · simp [h, show i < len₁ + len₂ by omega]
  · simp [h, hi, show i - len₂ < len₁ by omega, show a + len₂ + (i - len₂) = a + i by omega]

/-- The word made of a word's fields is that word. -/
theorem toWord_of_fields (w : CmdWord) : (Fields.ofWord w).toWord = w := by
  simp only [Fields.toWord, Fields.ofWord]
  rw [extract_join w 56 59 8 5 3 rfl rfl, BitVec.cast_eq, extract_join w 51 56 13 8 5 rfl rfl, BitVec.cast_eq,
    extract_join w 31 51 33 13 20 rfl rfl, BitVec.cast_eq, extract_join w 27 31 37 33 4 rfl rfl, BitVec.cast_eq,
    extract_join w 17 27 47 37 10 rfl rfl, BitVec.cast_eq, extract_join w 13 17 51 47 4 rfl rfl, BitVec.cast_eq,
    extract_join w 3 13 61 51 10 rfl rfl, BitVec.cast_eq, extract_join w 0 3 64 61 3 rfl rfl, BitVec.cast_eq]
  exact extract_all w

/-! What each usage pattern of the decoder accepts, and with what. -/

theorem onlyData_ok {f : Fields} {mk : DataSlot → Instr} {i : Instr} (h : f.onlyData mk = .ok i) :
    f.amt = 0 ∧ f.key = .zero ∧ f.aux = .zero ∧ i = mk f.data := by
  unfold Fields.onlyData at h
  split at h
  · cases h
  · split at h <;> cases h
    simp_all

theorem amtData_ok {f : Fields} {mk : BitVec 3 → DataSlot → Instr} {i : Instr} (h : f.amtData mk = .ok i) :
    f.key = .zero ∧ f.aux = .zero ∧ i = mk f.amt f.data := by
  unfold Fields.amtData at h
  split at h <;> cases h
  simp_all

theorem dataAux_ok {f : Fields} {mk : DataSlot → AuxSlot → Instr} {i : Instr} (h : f.dataAux mk = .ok i) :
    f.amt = 0 ∧ f.key = .zero ∧ i = mk f.data f.aux := by
  unfold Fields.dataAux at h
  split at h
  · cases h
  · split at h <;> cases h
    simp_all

theorem onlyKey_ok {f : Fields} {mk : KeySlot → Instr} {i : Instr} (h : f.onlyKey mk = .ok i) :
    f.amt = 0 ∧ f.data = .zero ∧ f.aux = .zero ∧ i = mk f.key := by
  unfold Fields.onlyKey at h
  split at h
  · cases h
  · split at h <;> cases h
    simp_all

theorem keyData_ok {f : Fields} {mk : KeySlot → DataSlot → Instr} {i : Instr} (h : f.keyData mk = .ok i) :
    f.amt = 0 ∧ f.aux = .zero ∧ i = mk f.key f.data := by
  unfold Fields.keyData at h
  split at h
  · cases h
  · split at h <;> cases h
    simp_all

end Sys2Proof
end

