-- ==== Sys2Proof/Laws/State.lean ====
section
/-! SUPPORT. The state's fields under each update, true by unfolding, for simp. -/

namespace Sys2Proof.Machine

@[simp] theorem writeResp_resp (w : RespWord) (s : State) : (writeResp w s).resp = w := rfl
@[simp] theorem writeResp_built (w : RespWord) (s : State) : (writeResp w s).built = s.built := rfl
@[simp] theorem writeResp_pending (w : RespWord) (s : State) : (writeResp w s).pending = s.pending := rfl

@[simp] theorem raise_resp (e : Err) (s : State) : (raise e s).resp = errorWord e := rfl
@[simp] theorem raise_built (e : Err) (s : State) : (raise e s).built = s.built := rfl
@[simp] theorem raise_pending (e : Err) (s : State) : (raise e s).pending = s.pending := rfl

@[simp] theorem presentFirst_resp (e : Event) (s : State) : (presentFirst e s).resp = s.resp := rfl
@[simp] theorem presentFirst_built (e : Event) (s : State) : (presentFirst e s).built = s.built := rfl
@[simp] theorem presentFirst_pending (e : Event) (s : State) : (presentFirst e s).pending = e :: s.pending := rfl

@[simp] theorem reset_resp : State.reset.resp = 0 := rfl
@[simp] theorem reset_built : State.reset.built = defaultBuild := rfl
@[simp] theorem reset_pending : State.reset.pending = [] := rfl

@[simp] theorem readResp_eq (s : State) : readResp s = s.resp := rfl

/-- Taking the event just presented gives it back with the state before it. -/
@[simp] theorem nextEvent_presentFirst (e : Event) (s : State) : nextEvent (presentFirst e s) = (some e, s) := rfl

/-- With no event pending there is nothing to take. -/
theorem nextEvent_nil (s : State) (h : s.pending = []) : nextEvent s = (none, s) := by
  unfold nextEvent; rw [h]

/-- The oldest pending event is taken, and only the list of pending events changes. -/
theorem nextEvent_cons (s : State) (e : Event) (rest : List Event) (h : s.pending = e :: rest) :
    nextEvent s = (some e, { s with pending := rest }) := by
  unfold nextEvent; rw [h]

end Sys2Proof.Machine
end

