-- ==== Sys2Proof/Laws/Vectors.lean ====
section
/-! SUPPORT. Bit vectors: lengths, weights and positions. -/

namespace Sys2Proof.Machine

@[simp] theorem position_zero (v : Bits) : v.position 0 = none := rfl
@[simp] theorem position_succ (v : Bits) (p : Nat) : v.position (p + 1) = v[p]? := rfl

@[simp] theorem vecOf_length (n x : Nat) : (vecOf n x).length = n := by
  induction n with
  | zero => rfl
  | succ n ih => simp [vecOf, ih]

/-- The element at index i of `vec_n(x)` has weight `2^(n-1-i)`. -/
theorem vecOf_getElem? (n x i : Nat) (h : i < n) : (vecOf n x)[i]? = some (x.testBit (n - 1 - i)) := by
  induction n generalizing i with
  | zero => omega
  | succ n ih =>
    cases i with
    | zero => simp [vecOf]
    | succ i =>
      have := ih i (by omega)
      simpa [vecOf, show n - (i + 1) = n - 1 - i by omega] using this

theorem val_lt (v : Bits) : val v < 2 ^ v.length := by
  induction v with
  | nil => simp [val]
  | cons b v ih =>
    have : b.toNat ≤ 1 := by cases b <;> decide
    have h2 : b.toNat * 2 ^ v.length ≤ 1 * 2 ^ v.length := Nat.mul_le_mul_right _ this
    simp only [val, List.length_cons, Nat.pow_succ]
    omega

/-- The low bits of a value do not depend on what is added above them. -/
theorem vecOf_add_high (n x c : Nat) : vecOf n (c * 2 ^ n + x) = vecOf n x := by
  apply List.ext_getElem?
  intro i
  by_cases h : i < n
  · rw [vecOf_getElem? _ _ _ h, vecOf_getElem? _ _ _ h]
    have h1 : (c * 2 ^ n + x).testBit (n - 1 - i) = ((c * 2 ^ n + x) % 2 ^ n).testBit (n - 1 - i) := by
      rw [Nat.testBit_mod_two_pow]; simp [show n - 1 - i < n by omega]
    have h2 : x.testBit (n - 1 - i) = (x % 2 ^ n).testBit (n - 1 - i) := by
      rw [Nat.testBit_mod_two_pow]; simp [show n - 1 - i < n by omega]
    rw [h1, h2, Nat.mul_add_mod_self_right]
  · rw [List.getElem?_eq_none (by simpa using h), List.getElem?_eq_none (by simpa using h)]

/-- Reading a value back as a vector of its own length gives the vector. -/
theorem vecOf_val (v : Bits) : vecOf v.length (val v) = v := by
  induction v with
  | nil => rfl
  | cons b v ih =>
    have hb : (b.toNat * 2 ^ v.length + val v).testBit v.length = b := by
      have hlt := val_lt v
      cases b with
      | false => simpa using Nat.testBit_lt_two_pow hlt
      | true => simp [Nat.testBit_two_pow_add_eq, Nat.testBit_lt_two_pow hlt]
    simp only [List.length_cons, val, vecOf, hb, vecOf_add_high, ih]

/-- A vector of length n read off a value below `2^n` has that value. -/
theorem val_vecOf (n x : Nat) (h : x < 2 ^ n) : val (vecOf n x) = x := by
  induction n generalizing x with
  | zero => simp only [vecOf, val]; omega
  | succ n ih =>
    have hx : x = (x.testBit n).toNat * 2 ^ n + x % 2 ^ n := by
      rw [Nat.toNat_testBit, Nat.mod_eq_of_lt (a := x / 2 ^ n) (by
        rw [Nat.div_lt_iff_lt_mul (by positivity)]; rw [Nat.pow_succ] at h; omega)]
      rw [Nat.mul_comm]; exact (Nat.div_add_mod x (2 ^ n)).symm
    have hv : vecOf n x = vecOf n (x % 2 ^ n) := by
      conv_lhs => rw [hx]
      exact vecOf_add_high _ _ _
    simp only [vecOf, val, vecOf_length]
    rw [hv, ih _ (Nat.mod_lt _ (by positivity))]
    exact hx.symm

@[simp] theorem slotBits_length {t w : Nat} (s : Slot t w) : (slotBits s).length = s.len.toNat := by
  simp [slotBits]

/-- What reading a slot can answer: its vector when the slot is well-formed, INVALID_INPUT otherwise. -/
theorem slotVector_cases {t w : Nat} (s : Slot t w) :
    (s.wf = true ∧ slotVector s = .ok (slotBits s)) ∨ (s.wf = false ∧ slotVector s = .error .invalidInput) := by
  cases h : s.wf <;> simp [slotVector, h]

/-- A well-formed slot's vector has the tag's length, which is no more than the width. -/
theorem slotVector_ok {t w : Nat} (s : Slot t w) (v : Bits) (h : slotVector s = .ok v) :
    v = slotBits s ∧ s.wf = true ∧ v.length = s.len.toNat ∧ v.length ≤ w := by
  rcases slotVector_cases s with ⟨hwf, heq⟩ | ⟨-, heq⟩
  · rw [heq] at h
    cases h
    refine ⟨rfl, hwf, slotBits_length s, ?_⟩
    have := hwf
    simp only [Slot.wf, Bool.and_eq_true, decide_eq_true_eq] at this
    simpa using this.1
  · rw [heq] at h; cases h

end Sys2Proof.Machine
end

