-- ==== Sys2Proof/Laws/Ops.lean ====
section
/-! SUPPORT. What each shared operation can answer. -/

namespace Sys2Proof.Machine

@[simp] theorem require_true (e : Err) : require true e = .ok () := rfl
@[simp] theorem require_false (e : Err) : require false e = .error e := rfl

@[simp] theorem ok_bind {α β : Type} (a : α) (f : α → Except Err β) : (Except.ok a >>= f) = f a := rfl
@[simp] theorem error_bind {α β : Type} (e : Err) (f : α → Except Err β) :
    ((Except.error e : Except Err α) >>= f) = .error e := rfl

/-- A sequence of two computations answers a value only when both do. -/
theorem bind_eq_ok {α β : Type} {x : Except Err α} {f : α → Except Err β} {b : β} (h : (x >>= f) = .ok b) :
    ∃ a, x = .ok a ∧ f a = .ok b := by
  cases x with
  | ok a => exact ⟨a, rfl, h⟩
  | error e => cases h

/-- A sequence of two computations fails with the first error met (`00_scope.md` R10). -/
theorem bind_eq_error {α β : Type} {x : Except Err α} {f : α → Except Err β} {e : Err} (h : (x >>= f) = .error e) :
    x = .error e ∨ ∃ a, x = .ok a ∧ f a = .error e := by
  cases x with
  | ok a => exact .inr ⟨a, rfl, h⟩
  | error e' => cases h; exact .inl rfl

theorem require_eq_ok {c : Bool} {e : Err} {u : Unit} (h : require c e = .ok u) : c = true := by
  cases c <;> cases h; rfl

theorem require_eq_error {c : Bool} {e e' : Err} (h : require c e = .error e') : e' = e ∧ c = false := by
  cases c <;> cases h; exact ⟨rfl, rfl⟩

/-- Everything a command's end can do: RESP gets the packed result or the error, and nothing else changes. -/
theorem finish_eq (r : Result) (s : State) : finish r s = .next (writeResp (resultWord r) s) := by
  cases r <;> rfl

/-- An illegal word only writes INVALID_OP to RESP. -/
theorem illegalCommand_eq (why : Illegal) (s : State) :
    illegalCommand why s = .next (writeResp (errorWord .invalidOp) s) := rfl

/-- A reset only writes zero to RESP. -/
theorem takeReset_eq (s : State) : takeReset s = .next (writeResp 0 s) := rfl

theorem validOf_respWord (v : BitVec 1) (st : BitVec 3) (n : BitVec 5) (r : BitVec 16) :
    validOf (respWord v st n r) = v := by
  apply BitVec.eq_of_getLsbD_eq
  intro i hi
  simp only [validOf, respWord, BitVec.getLsbD_extractLsb', BitVec.getLsbD_append]
  simp [hi, show ¬ (31 + i < 16) by omega, show ¬ (31 + i - 16 < 5) by omega, show ¬ (31 + i - 16 - 5 < 7) by omega,
    show ¬ (31 + i - 16 - 5 - 7 < 3) by omega, show 31 + i - 16 - 5 - 7 - 3 = i by omega]

theorem statOf_respWord (v : BitVec 1) (st : BitVec 3) (n : BitVec 5) (r : BitVec 16) :
    statOf (respWord v st n r) = st := by
  apply BitVec.eq_of_getLsbD_eq
  intro i hi
  simp only [statOf, respWord, BitVec.getLsbD_extractLsb', BitVec.getLsbD_append]
  simp [hi, show ¬ (28 + i < 16) by omega, show ¬ (28 + i - 16 < 5) by omega, show ¬ (28 + i - 16 - 5 < 7) by omega,
    show 28 + i - 16 - 5 - 7 = i by omega]

theorem reservedOf_respWord (v : BitVec 1) (st : BitVec 3) (n : BitVec 5) (r : BitVec 16) :
    reservedOf (respWord v st n r) = 0 := by
  apply BitVec.eq_of_getLsbD_eq
  intro i hi
  simp only [reservedOf, respWord, BitVec.getLsbD_extractLsb', BitVec.getLsbD_append]
  simp [show ¬ (21 + i < 16) by omega, show ¬ (21 + i - 16 < 5) by omega, show 21 + i - 16 - 5 < 7 by omega]

theorem rlenOf_respWord (v : BitVec 1) (st : BitVec 3) (n : BitVec 5) (r : BitVec 16) :
    rlenOf (respWord v st n r) = n := by
  apply BitVec.eq_of_getLsbD_eq
  intro i hi
  simp only [rlenOf, respWord, BitVec.getLsbD_extractLsb', BitVec.getLsbD_append]
  simp [hi, show ¬ (16 + i < 16) by omega]

theorem resOf_respWord (v : BitVec 1) (st : BitVec 3) (n : BitVec 5) (r : BitVec 16) :
    resOf (respWord v st n r) = r := by
  apply BitVec.eq_of_getLsbD_eq
  intro i hi
  simp only [resOf, respWord, BitVec.getLsbD_extractLsb', BitVec.getLsbD_append]
  simp [hi]

end Sys2Proof.Machine
end

