-- ==== Sys2Proof/Laws/Functions.lean ====
section
/-! SUPPORT. The function layer: when each function answers a value, and of what length. -/

namespace Sys2Proof.Machine

/-- Gathering positions succeeds when every entry is a position of the vector. -/
theorem gather_some (x : Bits) (T : IndexTable) (h : ∀ e ∈ T, 1 ≤ e ∧ e ≤ x.length) :
    ∃ y, T.mapM x.position = some y ∧ y.length = T.length ∧ ∀ i : Nat, y[i]? = T[i]?.bind x.position := by
  induction T with
  | nil => exact ⟨[], rfl, rfl, fun i => by simp⟩
  | cons e T ih =>
    obtain ⟨y, hy, hlen, hpos⟩ := ih (fun a ha => h a (List.mem_cons_of_mem _ ha))
    have he := h e List.mem_cons_self
    obtain ⟨b, hb⟩ : ∃ b, x.position e = some b := by
      obtain ⟨n, rfl⟩ : ∃ n, e = n + 1 := ⟨e - 1, by omega⟩
      exact ⟨x[n]'(by omega), by simp⟩
    refine ⟨b :: y, by simp [hb, hy], by simp [hlen], fun i => ?_⟩
    cases i with
    | zero => simp [hb]
    | succ i => simpa using hpos i

/-- Gathering fails when some entry is no position of the vector. -/
theorem gather_none (x : Bits) (T : IndexTable) (h : ∃ e ∈ T, e < 1 ∨ x.length < e) : T.mapM x.position = none := by
  induction T with
  | nil => obtain ⟨e, he, -⟩ := h; cases he
  | cons a T ih =>
    obtain ⟨e, he, hbad⟩ := h
    rcases List.mem_cons.mp he with rfl | he
    · have : x.position e = none := by
        cases e with
        | zero => rfl
        | succ n => simp; omega
      simp [this]
    · have := ih ⟨e, he, hbad⟩
      cases hx : x.position a <;> simp [this, hx]

/-- What `permute` answers when every entry is a position: one bit per entry. -/
theorem permute_ok (x : Bits) (T : IndexTable) (h : ∀ e ∈ T, 1 ≤ e ∧ e ≤ x.length) :
    ∃ y, permute x T = .ok y ∧ y.length = T.length ∧ ∀ i : Nat, y[i]? = T[i]?.bind x.position := by
  obtain ⟨y, hy, hlen, hpos⟩ := gather_some x T h
  exact ⟨y, by simp [permute, hy], hlen, hpos⟩

/-- All that `permute` can answer: the gathered positions, or INVALID_TABLE because of an entry that is no position. -/
theorem permute_cases (x : Bits) (T : IndexTable) :
    (∃ y, permute x T = .ok y ∧ y.length = T.length ∧ ∀ i : Nat, y[i]? = T[i]?.bind x.position)
    ∨ (permute x T = .error .invalidTable ∧ ∃ e ∈ T, e < 1 ∨ x.length < e) := by
  by_cases h : ∀ e ∈ T, 1 ≤ e ∧ e ≤ x.length
  · exact .inl (permute_ok x T h)
  · push Not at h
    obtain ⟨e, he, h⟩ := h
    have hbad : ∃ e ∈ T, e < 1 ∨ x.length < e := ⟨e, he, by omega⟩
    exact .inr ⟨by simp [permute, gather_none x T hbad], hbad⟩

/-- A table that fits a vector gives as many bits as it has entries. -/
theorem permute_fits {T : IndexTable} {len top : Nat} (hT : T.Fits len top) (x : Bits) (hx : top ≤ x.length) :
    ∃ y, permute x T = .ok y ∧ y.length = len := by
  obtain ⟨y, hy, hlen, -⟩ := permute_ok x T (fun e he => ⟨(hT.2 e he).1, (hT.2 e he).2.trans hx⟩)
  exact ⟨y, hy, hlen.trans hT.1⟩

@[simp] theorem rotateLeft_length (x : Bits) (k : Nat) : (rotateLeft x k).length = x.length := by
  unfold rotateLeft
  rcases Nat.eq_zero_or_pos x.length with h | h
  · have : x = [] := List.length_eq_zero_iff.mp h
    subst this; simp
  · have := Nat.mod_lt k h
    simp; omega

/-- Adding the same vector twice changes nothing. -/
theorem zipWith_xor_cancel (a b : Bits) (h : a.length = b.length) :
    List.zipWith Bool.xor a (List.zipWith Bool.xor a b) = b := by
  induction a generalizing b with
  | nil => cases b <;> simp_all
  | cons x a ih =>
    cases b with
    | nil => simp at h
    | cons y b => simpa [← Bool.xor_assoc] using ih b (by simpa using h)

theorem xor_ok (a b : Bits) (h : a.length = b.length) :
    ∃ y, xor a b = .ok y ∧ y.length = a.length := by
  exact ⟨List.zipWith Bool.xor a b, by simp [xor, h], by simp [h]⟩

theorem splitHalves_ok (x : Bits) (h : x.length = 8) :
    ∃ L R, splitHalves x = .ok (L, R) ∧ L.length = 4 ∧ R.length = 4 ∧ x = L ++ R := by
  exact ⟨x.take 4, x.drop 4, by simp [splitHalves, Config.blockBits, Config.halfBits, h], by simp [h], by simp [h],
    (List.take_append_drop 4 x).symm⟩

theorem swapHalves_append (a b : Bits) (ha : a.length = 4) (hb : b.length = 4) :
    swapHalves (a ++ b) = .ok (b ++ a) := by
  have h1 : (a ++ b).drop 4 = b := by rw [← ha]; exact List.drop_left
  have h2 : (a ++ b).take 4 = a := by rw [← ha]; exact List.take_left
  simp [swapHalves, Config.blockBits, Config.halfBits, ha, hb, h1, h2]

theorem splitHalves_append (a b : Bits) (ha : a.length = 4) (hb : b.length = 4) :
    splitHalves (a ++ b) = .ok (a, b) := by
  have h1 : (a ++ b).drop 4 = b := by rw [← ha]; exact List.drop_left
  have h2 : (a ++ b).take 4 = a := by rw [← ha]; exact List.take_left
  simp [splitHalves, Config.blockBits, Config.halfBits, ha, hb, h1, h2]

theorem sBoxLookup_ok (b : Bits) (S : SBox) (h : b.length = 4) : ∃ y, sBoxLookup b S = .ok y ∧ y.length = 2 := by
  match b, h with
  | [b1, b2, b3, b4], _ => exact ⟨_, rfl, by simp⟩

theorem sBoxLookup_malformed (b : Bits) (S : SBox) (h : b.length ≠ 4) : sBoxLookup b S = .error .malformedInput := by
  unfold sBoxLookup
  split
  · simp at h
  · rfl

/-- The mask of a 4-bit half under an 8-bit subkey has 4 bits. -/
theorem mask_ok {T : Tables} (hT : T.WF) (R sk : Bits) (hR : R.length = 4) (hk : sk.length = 8) :
    ∃ m, mask T R sk = .ok m ∧ m.length = 4 := by
  obtain ⟨e, he, hel⟩ := permute_fits hT.ep R hR.ge
  obtain ⟨t, ht, htl⟩ := xor_ok e sk (hel.trans hk.symm)
  obtain ⟨tl, tr, hs, hl, hr, -⟩ := splitHalves_ok t (htl.trans hel)
  obtain ⟨u0, hu0, hu0l⟩ := sBoxLookup_ok tl T.s0 hl
  obtain ⟨u1, hu1, hu1l⟩ := sBoxLookup_ok tr T.s1 hr
  obtain ⟨v, hv, hvl⟩ := permute_fits hT.p4 (u0 ++ u1) (by simp [hu0l, hu1l])
  exact ⟨v, by simp [mask, he, ht, hs, hu0, hu1, hv], hvl⟩

/-- The round adds the mask onto the left half and keeps the right half. -/
theorem round_append {T : Tables} (hT : T.WF) (L R sk : Bits) (hL : L.length = 4) (hR : R.length = 4)
    (hk : sk.length = 8) :
    ∃ m, mask T R sk = .ok m ∧ m.length = 4 ∧ round T (L ++ R) sk = .ok (List.zipWith Bool.xor m L ++ R) := by
  obtain ⟨m, hm, hml⟩ := mask_ok hT R sk hR hk
  exact ⟨m, hm, hml, by simp [round, splitHalves_append L R hL hR, hm, xor, hml, hL]⟩

/-- The two subkeys of a 10-bit key have 8 bits each. -/
theorem keySchedule_ok {T : Tables} (hT : T.WF) (k : Bits) (hk : k.length = 10) :
    ∃ SK1 SK2, keySchedule T k = .ok (SK1, SK2) ∧ SK1.length = 8 ∧ SK2.length = 8 := by
  obtain ⟨p, hp, hpl⟩ := permute_fits hT.p10 k hk.ge
  have h1 : (rotateKeyHalves p Config.shift1).length = 10 := by simp [rotateKeyHalves, Config.keyHalfBits, hpl]
  obtain ⟨SK1, hs1, hl1⟩ := permute_fits hT.p8 _ h1.ge
  have h3 : (rotateKeyHalves (rotateKeyHalves p Config.shift1) Config.shift2).length = 10 := by
    have hgen : ∀ (q : Bits) (n : Nat), (rotateKeyHalves q n).length = q.length := by
      intro q n; simp [rotateKeyHalves, Config.keyHalfBits]; omega
    rw [hgen, h1]
  obtain ⟨SK2, hs2, hl2⟩ := permute_fits hT.p8 _ h3.ge
  exact ⟨SK1, SK2, by simp [keySchedule, Config.keyBits, hk, hp, hs1, hs2], hl1, hl2⟩

end Sys2Proof.Machine
end

