-- ==== Sys2Proof/Laws/PerInstr.lean ====
section
/-! SUPPORT. Laws of the instruction as syntax, one lemma per constructor. -/

namespace Sys2Proof.Laws.ReservedZero

/-- Bits 2:0 of an instruction's word are 000 (`30_encoding.md` R60). -/
def Statement (i : Instr) : Prop :=
  (Fields.ofWord (encode i)).reserved = 0

theorem permP10 (data : DataSlot) : Statement (.permP10 data) := by simp [Statement, encode, fields_of_toWord, encodeFields]
theorem permP8 (data : DataSlot) : Statement (.permP8 data) := by simp [Statement, encode, fields_of_toWord, encodeFields]
theorem permIp (data : DataSlot) : Statement (.permIp data) := by simp [Statement, encode, fields_of_toWord, encodeFields]
theorem permIpinv (data : DataSlot) : Statement (.permIpinv data) := by simp [Statement, encode, fields_of_toWord, encodeFields]
theorem permEp (data : DataSlot) : Statement (.permEp data) := by simp [Statement, encode, fields_of_toWord, encodeFields]
theorem permP4 (data : DataSlot) : Statement (.permP4 data) := by simp [Statement, encode, fields_of_toWord, encodeFields]
theorem split (data : DataSlot) : Statement (.split data) := by simp [Statement, encode, fields_of_toWord, encodeFields]
theorem swap (data : DataSlot) : Statement (.swap data) := by simp [Statement, encode, fields_of_toWord, encodeFields]
theorem sbox0 (data : DataSlot) : Statement (.sbox0 data) := by simp [Statement, encode, fields_of_toWord, encodeFields]
theorem sbox1 (data : DataSlot) : Statement (.sbox1 data) := by simp [Statement, encode, fields_of_toWord, encodeFields]
theorem rotl (amt : BitVec 3) (data : DataSlot) : Statement (.rotl amt data) := by simp [Statement, encode, fields_of_toWord, encodeFields]
theorem xor (data : DataSlot) (aux : AuxSlot) : Statement (.xor data aux) := by simp [Statement, encode, fields_of_toWord, encodeFields]
theorem ksched (key : KeySlot) : Statement (.ksched key) := by simp [Statement, encode, fields_of_toWord, encodeFields]
theorem round (data : DataSlot) (aux : AuxSlot) : Statement (.round data aux) := by simp [Statement, encode, fields_of_toWord, encodeFields]
theorem enc (key : KeySlot) (data : DataSlot) : Statement (.enc key data) := by simp [Statement, encode, fields_of_toWord, encodeFields]
theorem dec (key : KeySlot) (data : DataSlot) : Statement (.dec key data) := by simp [Statement, encode, fields_of_toWord, encodeFields]
theorem enc3 (key : KeySlot) (data : DataSlot) : Statement (.enc3 key data) := by simp [Statement, encode, fields_of_toWord, encodeFields]
theorem dec3 (key : KeySlot) (data : DataSlot) : Statement (.dec3 key data) := by simp [Statement, encode, fields_of_toWord, encodeFields]

end Sys2Proof.Laws.ReservedZero
end

