-- ==== Sys2Proof/Tests/Slice0.lean ====
section
/-! SUPPORT. The model's own tests: words and responses the spec prints, refused words, ill-formed terms, and for every
statement with hypotheses a concrete case that meets them. -/

namespace Sys2Proof.Tests

open Sys2Proof.Machine Sys2Proof.Safety

/-- RESP after one command on a core just reset. -/
def respAfter (w : CmdWord) : Option RespWord :=
  match step { State.reset with pending := [.command w] } with
  | .next t => some t.resp
  | _ => none

/-- A vector from its written form (`00_scope.md` R8). -/
def bits (s : String) : Bits :=
  s.toList.map (fun c => c == '1')

/-! ## Decoding: one printed word for each operation (the examples of rules R110 to R121, R141, R151, R164, R165, R173, R174) -/

theorem test_decode_permP10 : decode 0x0800000055040000 = .ok (.permP10 ⟨10, 0b1010000010⟩) := by rfl
theorem test_decode_permP8 : decode 0x1000000050700000 = .ok (.permP8 ⟨10, 0b0000111000⟩) := by rfl
theorem test_decode_permIp : decode 0x1800000040E40000 = .ok (.permIp ⟨8, 0b01110010⟩) := by rfl
theorem test_decode_permIpinv : decode 0x2000000041520000 = .ok (.permIpinv ⟨8, 0b10101001⟩) := by rfl
theorem test_decode_permEp : decode 0x2800000020120000 = .ok (.permEp ⟨4, 0b1001⟩) := by rfl
theorem test_decode_permP4 : decode 0x3000000020160000 = .ok (.permP4 ⟨4, 0b1011⟩) := by rfl
theorem test_decode_rotl : decode 0x3F000000282C0000 = .ok (.rotl 7 ⟨5, 0b10110⟩) := by rfl
theorem test_decode_xor : decode 0x40000000200F0520 = .ok (.xor ⟨4, 0b0111⟩ ⟨8, 0b10100100⟩) := by rfl
theorem test_decode_split : decode 0x4800000041520000 = .ok (.split ⟨8, 0b10101001⟩) := by rfl
theorem test_decode_swap : decode 0x5000000041B20000 = .ok (.swap ⟨8, 0b11011001⟩) := by rfl
theorem test_decode_sbox0 : decode 0x58000000200C0000 = .ok (.sbox0 ⟨4, 0b0110⟩) := by rfl
theorem test_decode_sbox1 : decode 0x60000000200E0000 = .ok (.sbox1 ⟨4, 0b0111⟩) := by rfl
theorem test_decode_ksched : decode 0x8050014100000000 = .ok (.ksched ⟨10, 0b1010000010⟩) := by rfl
theorem test_decode_round : decode 0x8800000041530520 = .ok (.round ⟨8, 0b10101001⟩ ⟨8, 0b10100100⟩) := by rfl
theorem test_decode_enc : decode 0x9050014140E40000 = .ok (.enc ⟨10, 0b1010000010⟩ ⟨8, 0b01110010⟩) := by rfl
theorem test_decode_dec : decode 0x9850014140EE0000 = .ok (.dec ⟨10, 0b1010000010⟩ ⟨8, 0b01110111⟩) := by rfl
theorem test_decode_enc3 : decode 0xA0A504D740E40000 = .ok (.enc3 ⟨20, 0b10100000100110101110⟩ ⟨8, 0b01110010⟩) := by rfl
theorem test_decode_dec3 : decode 0xA8A504D741600000 = .ok (.dec3 ⟨20, 0b10100000100110101110⟩ ⟨8, 0b10110000⟩) := by rfl

/-! The word of R69's example written out field by field: OP 10010, AMT 000, KLEN 01010, KEY, DLEN 1000, DATA, ALEN 0000, AUX,
reserved 000. -/

theorem test_decode_bits_enc :
    decode 0b10010_000_01010_00000000001010000010_1000_0001110010_0000_0000000000_000
      = .ok (.enc ⟨10, 0b1010000010⟩ ⟨8, 0b01110010⟩) := by rfl

/-! Widest tags and fields: nothing of a slot is dropped (R60). -/

theorem test_decode_bits_rotl :
    decode 0b00111_101_00000_00000000000000000000_1111_1000000001_0000_0000000000_000
      = .ok (.rotl 5 ⟨15, 0b1000000001⟩) := by rfl

theorem test_decode_bits_round :
    decode 0b10001_000_00000_00000000000000000000_1001_1000000000_1100_0000000001_000
      = .ok (.round ⟨9, 0b1000000000⟩ ⟨12, 1⟩) := by rfl

/-! Illegal words by name (`95_test_vectors.md` 2.10). -/

theorem test_illegal_zero : decode 0x0000000000000000 = .error .unassignedOp := by rfl
theorem test_illegal_op : decode 0x6800000000000000 = .error .unassignedOp := by rfl
theorem test_illegal_reserved : decode 0x9050014140E40004 = .error .reservedBits := by rfl
theorem test_illegal_amt : decode 0x41000000200E8050 = .error .amtNotZero := by rfl
theorem test_illegal_key : decode 0x18000000C0E40000 = .error .unusedSlot := by rfl
theorem test_illegal_data : decode 0x8050014140000000 = .error .unusedSlot := by rfl
theorem test_illegal_aux : decode 0x9050014140E48000 = .error .unusedSlot := by rfl

/-! ## Well-formedness: an ill-formed term for each check (R65) -/

theorem test_illFormed_tag : (Slot.wf (⟨11, 0⟩ : DataSlot)) = false := by decide
theorem test_illFormed_bit : (Slot.wf (⟨5, 0b100000⟩ : DataSlot)) = false := by decide
theorem test_illFormed_key_tag : (Slot.wf (⟨21, 0⟩ : KeySlot)) = false := by decide
theorem test_illFormed_key_bit : (Slot.wf (⟨10, 0b10000000000⟩ : KeySlot)) = false := by decide
theorem test_wellFormed_widest : (Slot.wf (⟨20, 0xFFFFF⟩ : KeySlot)) = true := by decide
theorem test_wellFormed_empty : (Slot.wf (⟨0, 0⟩ : DataSlot)) = true := by decide

theorem test_illFormed_permP10 : (Instr.permP10 ⟨11, 9⟩).WellFormed = false := by decide
theorem test_illFormed_permP8 : (Instr.permP8 ⟨11, 9⟩).WellFormed = false := by decide
theorem test_illFormed_permIp : (Instr.permIp ⟨11, 9⟩).WellFormed = false := by decide
theorem test_illFormed_permIpinv : (Instr.permIpinv ⟨11, 9⟩).WellFormed = false := by decide
theorem test_illFormed_permEp : (Instr.permEp ⟨11, 9⟩).WellFormed = false := by decide
theorem test_illFormed_permP4 : (Instr.permP4 ⟨11, 9⟩).WellFormed = false := by decide
theorem test_illFormed_rotl : (Instr.rotl 1 ⟨11, 9⟩).WellFormed = false := by decide
theorem test_illFormed_xor : (Instr.xor ⟨11, 9⟩ ⟨4, 9⟩).WellFormed = false ∧ (Instr.xor ⟨4, 9⟩ ⟨3, 9⟩).WellFormed = false := by decide
theorem test_illFormed_split : (Instr.split ⟨11, 9⟩).WellFormed = false := by decide
theorem test_illFormed_swap : (Instr.swap ⟨11, 9⟩).WellFormed = false := by decide
theorem test_illFormed_sbox0 : (Instr.sbox0 ⟨11, 9⟩).WellFormed = false := by decide
theorem test_illFormed_sbox1 : (Instr.sbox1 ⟨11, 9⟩).WellFormed = false := by decide
theorem test_illFormed_ksched : (Instr.ksched ⟨3, 9⟩).WellFormed = false := by decide
theorem test_illFormed_round : (Instr.round ⟨11, 9⟩ ⟨4, 9⟩).WellFormed = false ∧ (Instr.round ⟨4, 9⟩ ⟨3, 9⟩).WellFormed = false := by decide
theorem test_illFormed_enc : (Instr.enc ⟨3, 9⟩ ⟨4, 9⟩).WellFormed = false ∧ (Instr.enc ⟨5, 9⟩ ⟨11, 9⟩).WellFormed = false := by decide
theorem test_illFormed_dec : (Instr.dec ⟨3, 9⟩ ⟨4, 9⟩).WellFormed = false ∧ (Instr.dec ⟨5, 9⟩ ⟨11, 9⟩).WellFormed = false := by decide
theorem test_illFormed_enc3 : (Instr.enc3 ⟨3, 9⟩ ⟨4, 9⟩).WellFormed = false ∧ (Instr.enc3 ⟨5, 9⟩ ⟨11, 9⟩).WellFormed = false := by decide
theorem test_illFormed_dec3 : (Instr.dec3 ⟨3, 9⟩ ⟨4, 9⟩).WellFormed = false ∧ (Instr.dec3 ⟨5, 9⟩ ⟨11, 9⟩).WellFormed = false := by decide

/-! ## Execution: RESP the spec prints for a command on a core with the default tables (examples of the rules, `95_test_vectors.md` section 2) -/

/-- R110 -/
theorem test_exec_permP10 : respAfter 0x0800000055040000 = some 0x800A020C := by decide
/-- R110 -/
theorem test_exec_permP10_short : respAfter 0x0800000041400000 = some 0xD0000000 := by decide
/-- R111 -/
theorem test_exec_permP8 : respAfter 0x1000000050700000 = some 0x800800A4 := by decide
/-- R111 -/
theorem test_exec_permP8_short : respAfter 0x10000000401C0000 = some 0xD0000000 := by decide
/-- 2.1: positions 9, 10 ignored -/
theorem test_exec_permIp_long : respAfter 0x1800000053960000 = some 0x800800A9 := by decide
/-- R112 -/
theorem test_exec_permIp_short : respAfter 0x1800000038720000 = some 0xD0000000 := by decide
/-- R113 -/
theorem test_exec_permIpinv : respAfter 0x2000000041520000 = some 0x80080072 := by decide
/-- 2.1 -/
theorem test_exec_permIpinv_short : respAfter 0x2000000038EC0000 = some 0xD0000000 := by decide
/-- R114 -/
theorem test_exec_permEp : respAfter 0x2800000020120000 = some 0x800800C3 := by decide
/-- R114 -/
theorem test_exec_permEp_short : respAfter 0x2800000018080000 = some 0xD0000000 := by decide
/-- R115 -/
theorem test_exec_permP4 : respAfter 0x3000000020160000 = some 0x80040007 := by decide
/-- R115 -/
theorem test_exec_permP4_empty : respAfter 0x3000000000000000 = some 0xD0000000 := by decide
/-- R116 -/
theorem test_exec_rotl_wraps : respAfter 0x3F000000282C0000 = some 0x8005001A := by decide
/-- 2.2 -/
theorem test_exec_rotl_empty : respAfter 0x3B00000000000000 = some 0x80000000 := by decide
/-- R117 -/
theorem test_exec_xor : respAfter 0x4000000041870520 = some 0x80080067 := by decide
/-- R117 -/
theorem test_exec_xor_mismatch : respAfter 0x40000000200F0520 = some 0xC0000000 := by decide
/-- R118 -/
theorem test_exec_split : respAfter 0x4800000041520000 = some 0x800800A9 := by decide
/-- R118 -/
theorem test_exec_split_short : respAfter 0x4800000038A80000 = some 0xB0000000 := by decide
/-- R119 -/
theorem test_exec_swap : respAfter 0x5000000041B20000 = some 0x8008009D := by decide
/-- R119 -/
theorem test_exec_swap_long : respAfter 0x5000000056CE0000 = some 0xB0000000 := by decide
/-- R120 -/
theorem test_exec_sbox0 : respAfter 0x58000000200C0000 = some 0x80020002 := by decide
/-- R120 -/
theorem test_exec_sbox0_short : respAfter 0x5800000018060000 = some 0xB0000000 := by decide
/-- R121 -/
theorem test_exec_sbox1 : respAfter 0x60000000200E0000 = some 0x80020003 := by decide
/-- 2.5: 0001 is row 1, column 0 -/
theorem test_exec_sbox1_asymmetric : respAfter 0x6000000020020000 = some 0x80020002 := by decide
/-- R141 -/
theorem test_exec_ksched : respAfter 0x8050014100000000 = some 0x8010A443 := by decide
/-- R141 -/
theorem test_exec_ksched_short : respAfter 0x804800A080000000 = some 0xA0000000 := by decide
/-- R151 -/
theorem test_exec_round : respAfter 0x8800000041530520 = some 0x800800D9 := by decide
/-- R151 -/
theorem test_exec_round_subkey : respAfter 0x880000004152E290 = some 0xC0000000 := by decide
/-- R164 -/
theorem test_exec_enc : respAfter 0x9050014140E40000 = some 0x80080077 := by decide
/-- R164 -/
theorem test_exec_enc_block : respAfter 0x9050014138720000 = some 0xB0000000 := by decide
/-- R165 -/
theorem test_exec_dec : respAfter 0x9850014140EE0000 = some 0x80080072 := by decide
/-- 2.8 -/
theorem test_exec_dec_key : respAfter 0x9840005040EE0000 = some 0xA0000000 := by decide
/-- R173 -/
theorem test_exec_enc3 : respAfter 0xA0A504D740E40000 = some 0x800800B0 := by decide
/-- 2.9: key and block wrong -/
theorem test_exec_enc3_both : respAfter 0xA050014138720000 = some 0xA0000000 := by decide
/-- R174 -/
theorem test_exec_dec3 : respAfter 0xA8A504D741600000 = some 0x80080072 := by decide
/-- R174 -/
theorem test_exec_dec3_block : respAfter 0xA8A504D738B00000 = some 0xB0000000 := by decide

/-! Priority of errors and illegal words (`95_test_vectors.md` 2.10). -/

theorem test_priority_slot_over_mismatch : respAfter 0x40000000200F8520 = some 0xA0000000 := by decide
theorem test_priority_slot_over_block : respAfter 0x9050014139E40000 = some 0xA0000000 := by decide
theorem test_priority_op_over_lengths : respAfter 0x914800A0B8720000 = some 0x90000000 := by decide
theorem test_priority_state_over_subkey : respAfter 0x8800000038A8E290 = some 0xB0000000 := by decide

/-! The function `respond` gives the same (R61), and other tables other answers (U6): S0 and S1 exchanged. -/

theorem test_respond_enc : respond defaultTables 0x9050014140E40000 = 0x80080077 := by decide
theorem test_respond_other_tables :
    respond { defaultTables with s0 := defaultTables.s1, s1 := defaultTables.s0 } 0x60000000200E0000 = 0x80020000 := by decide

/-! Function-layer cases no command can reach (`95_test_vectors.md` 2.11). -/

theorem test_permute_below_one : permute (bits "1010") [2, 0, 1, 3] = .error .invalidTable := by rfl
theorem test_permute_above_length : permute (bits "1010") [2, 5, 1, 3] = .error .invalidTable := by rfl
theorem test_permute_repeats : permute (bits "1010") [4, 4, 4] = .ok (bits "000") := by rfl
theorem test_permute_empty_table : permute (bits "1010") [] = .ok [] := by rfl
theorem test_rotateLeft_twelve : rotateLeft (bits "10110") 12 = bits "11010" := by decide
theorem test_encrypt3_unequal_keys :
    encrypt3 defaultTables (bits "101000001") (bits "01101011101") (bits "01110010") = .error .invalidInput := by rfl
theorem test_round_short_subkey :
    round defaultTables (bits "10101001") (bits "1010") = .error .lengthMismatch := by rfl

/-! Reset, and an error that is not sticky (`95_test_vectors.md`, program 6). -/

theorem test_reset_event :
    (match step { State.reset with resp := 0x80080077, pending := [.reset] } with | .next t => some t.resp | _ => none)
      = some 0 := by decide
theorem test_error_not_sticky :
    (match step { State.reset with resp := 0xA0000000, pending := [.command 0x9050014140E40000] } with
      | .next t => some t.resp | _ => none) = some 0x80080077 := by decide

/-! The assembler: lines the spec prints, and lines it refuses (R69, R70). -/

theorem test_asm_enc : assemble "ENC 1010000010, 01110010" = some 0x9050014140E40000 := by decide
theorem test_asm_enc3_two_keys :
    assemble "ENC3 1010000010, 0110101110, 01110010" = some 0xA0A504D740E40000 := by decide
theorem test_asm_enc3_unequal_keys : assemble "ENC3 101000001, 00110101110, 01110010" = none := by decide
theorem test_asm_too_long : assemble "SWAP 11011001110" = none := by decide
/-- `95_test_vectors.md`, the raw words of ill-formed commands. -/
theorem test_asm_raw_word : assemble ".word 0x8800000038A8E290" = some 0x8800000038A8E290 := by decide
theorem test_asm_amount_eight : assemble "ROTL 10110, 8" = none := by decide

/-! ## Witnesses: for every statement with hypotheses, a case that meets them -/

/-- A core just reset that has one command pending. -/
def waiting (w : CmdWord) : State :=
  { State.reset with pending := [.command w] }

theorem witness_EncodeOfDecode : decode 0x3F000000282C0000 = .ok (.rotl 7 ⟨5, 0b10110⟩) := by rfl

/-- A word that a row selects, and one that no row does. -/
theorem witness_RowsSelectWhatDecodes :
    (∃ r ∈ rows, (0x3F000000282C0000 : CmdWord) &&& r.mask = r.pattern ∧ r.op = 0x07)
    ∧ ∀ r ∈ rows, (0x9050014140E40001 : CmdWord) &&& r.mask ≠ r.pattern :=
  ⟨⟨{ op := 0x07, uses := [.amt, .data], pattern := 0x3800000000000000, mask := 0xF8FFFFFF8001FFFF }, by decide, by decide,
    rfl⟩, by decide⟩

theorem witness_IllegalWordsRaiseInvalidOp :
    IllegalWord 0x0000000000000000 ∧ IllegalWord 0x9050014140E40001 ∧ IllegalWord 0x914800A0B8720000
    ∧ IllegalWord 0x18000000C0E40000 ∧ IllegalWord 0x8050014140000000 ∧ IllegalWord 0x9050014140E40008
    ∧ ¬ IllegalWord 0x9050014140E40000 := by
  refine ⟨.inl (by decide), .inr (.inl (by decide)), .inr (.inr (.inl (by decide))), .inr (.inr (.inr (.inl (by decide)))),
    .inr (.inr (.inr (.inr (.inl (by decide))))), .inr (.inr (.inr (.inr (.inr (by decide))))), ?_⟩
  rintro (h | h | h | h | h | h) <;> revert h <;> decide

/-- The empty vector, the widest of each slot, and a slot that is full. -/
theorem witness_PlacedVectorReadsBack :
    (10 < 2 ^ 4 ∧ ([] : Bits).length ≤ 10) ∧ (10 < 2 ^ 4 ∧ (bits "1010000010").length ≤ 10)
    ∧ (20 < 2 ^ 5 ∧ (bits "10100000100110101110").length ≤ 20)
    ∧ ((⟨10, 0x3FF⟩ : DataSlot).len.toNat ≤ 10 ∧ ∀ j, 10 ≤ j → (⟨10, 0x3FF⟩ : DataSlot).field.getLsbD j = false) :=
  ⟨by decide, by decide, by decide, by decide, fun j hj => BitVec.getLsbD_of_ge _ _ hj⟩

/-- A tag one above the width, and a set bit just at the tag. -/
theorem witness_IllFormedSlotDenotesNoVector :
    10 < (⟨11, 0⟩ : DataSlot).len.toNat
    ∧ ((⟨5, 0b100000⟩ : DataSlot).len.toNat ≤ 5 ∧ (⟨5, 0b100000⟩ : DataSlot).field.getLsbD 5 = true) := by decide

theorem witness_IllFormedSlotRaisesInvalidInput :
    (Instr.enc ⟨9, 0b1000000000⟩ ⟨8, 0⟩).WellFormed = false ∧ (Instr.xor ⟨4, 7⟩ ⟨12, 0⟩).WellFormed = false := by decide

theorem witness_StepRunsDecodedCommand :
    (waiting 0x9050014140E40000).pending = .command 0x9050014140E40000 :: []
    ∧ decode 0x9050014140E40000 = .ok (.enc ⟨10, 0b1010000010⟩ ⟨8, 0b01110010⟩) := ⟨rfl, rfl⟩

theorem witness_StepWritesRespond :
    (waiting 0).pending = .command 0 :: [] ∧ ({ State.reset with pending := [.reset] } : State).pending = .reset :: []
    ∧ State.reset.pending = [] := ⟨rfl, rfl, rfl⟩

theorem witness_StepKeepsTables : ∃ t, step (waiting 0) = .next t := ⟨_, rfl⟩

theorem witness_ResponsesAreStateless :
    (waiting 0).built = ({ waiting 0 with resp := 0x80080077, pending := [.command 0, .reset] } : State).built
    ∧ (waiting 0).pending = .command 0 :: []
    ∧ ({ waiting 0 with resp := 0x80080077, pending := [.command 0, .reset] } : State).pending = .command 0 :: [.reset] :=
  ⟨rfl, rfl, rfl⟩

theorem witness_StepKeepsResponseLegal : Inv State.reset ∧ ∃ t, step State.reset = .next t :=
  ⟨by constructor <;> decide, _, rfl⟩

theorem witness_CommandLeavesValidResponse :
    (waiting 0x3F000000282C0000).pending = .command 0x3F000000282C0000 :: []
    ∧ ∃ t, step (waiting 0x3F000000282C0000) = .next t := ⟨rfl, _, rfl⟩

theorem witness_RunEndsWithLastResponse :
    ({ State.reset with pending := [.command 0, .reset] } : State).pending = [.command 0, .reset] := rfl

theorem witness_PlacedCommandRunsNext : decodeTableWord 64 0x5000000041B20000 = some (.swap ⟨8, 0b11011001⟩) := by rfl

/-- The empty result and the widest. -/
theorem witness_PackedResultReadsBack :
    ([] : Bits).length ≤ 16 ∧ (bits "1010010001000011").length = 16 := by decide

theorem witness_StatusesBelongToOperations :
    ∃ t, exec (.permP4 ⟨0, 0⟩) State.reset = .next t ∧ statOf t.resp = 5 := ⟨_, rfl, by decide⟩

theorem witness_StatusesBelongToOperations_two_three_four :
    (∃ t, exec (.ksched ⟨9, 0⟩) State.reset = .next t ∧ statOf t.resp = 2)
    ∧ (∃ t, exec (.swap ⟨7, 0⟩) State.reset = .next t ∧ statOf t.resp = 3)
    ∧ ∃ t, exec (.xor ⟨4, 0⟩ ⟨8, 0⟩) State.reset = .next t ∧ statOf t.resp = 4 :=
  ⟨⟨_, rfl, by decide⟩, ⟨_, rfl, by decide⟩, _, rfl, by decide⟩

/-- Entries at both ends of the range, and one just outside each end. -/
theorem witness_PermuteGathersPositions :
    (∀ e ∈ [1, 4], 1 ≤ e ∧ e ≤ (bits "1010").length) ∧ (∃ e ∈ [2, 0], e < 1 ∨ (bits "1010").length < e)
    ∧ ∃ e ∈ [2, 5], e < 1 ∨ (bits "1010").length < e := by decide

theorem witness_RotateLeftFollowsFormula : 1 ≤ 5 ∧ 5 ≤ (bits "10110").length := by decide

theorem witness_XorIsElementwise :
    ([] : Bits).length = ([] : Bits).length ∧ (bits "0111").length = (bits "1010").length
    ∧ (bits "0111").length ≠ (bits "10100").length := by decide

theorem witness_XorCommutesAndCancels : (bits "0111").length = (bits "1010").length := by decide

theorem witness_HalvesSplitAndSwap : (bits "1101100").length ≠ 8 ∧ (bits "110110011").length ≠ 8 := by decide

theorem witness_SwapTwiceRestoresVector : (bits "11011001").length = 8 := by decide

theorem witness_SBoxLooksUpRowAndColumn :
    ((3 : Fin 4).val = 2 * true.toNat + true.toNat ∧ (0 : Fin 4).val = 2 * false.toNat + false.toNat)
    ∧ (bits "011").length ≠ 4 := by decide

/-- A key of 10 bits, and keys of 9 and 11. -/
theorem witness_KeyScheduleRotatesByOneAndThree :
    defaultTables.WF ∧ (bits "1010000010").length = 10 ∧ (bits "101000001").length ≠ 10
    ∧ (bits "10100000101").length ≠ 10 := ⟨defaultTables_wf, by decide, by decide, by decide⟩

theorem witness_ConstantKeyGivesConstantSubkeys : defaultTables.WF := defaultTables_wf

theorem witness_RoundFollowsItsSteps :
    defaultTables.WF ∧ (bits "10101001").length = 8 ∧ (bits "10100100").length = 8 ∧ (bits "1010100").length ≠ 8
    ∧ (bits "1010010").length ≠ 8 := ⟨defaultTables_wf, by decide, by decide, by decide, by decide⟩

theorem witness_RoundTwiceRestoresState :
    defaultTables.WF ∧ (bits "10101001").length = 8 ∧ (bits "10100100").length = 8 :=
  ⟨defaultTables_wf, by decide, by decide⟩

theorem witness_InitialPermutationsAreInverse : defaultTables.WF ∧ (bits "01110010").length = 8 :=
  ⟨defaultTables_wf, by decide⟩

/-- The hypotheses of CipherFollowsItsSteps, SingleCipherRoundTrip and EqualKeysGiveSingleCipher. -/
theorem witness_single_cipher :
    defaultTables.WF ∧ (bits "1010000010").length = 10 ∧ (bits "01110010").length = 8 :=
  ⟨defaultTables_wf, by decide, by decide⟩

/-- Both clauses, one bit too few or too many. -/
theorem witness_SingleCipherChecksLengths :
    (bits "101000001").length ≠ 10 ∧ (bits "10100000101").length ≠ 10
    ∧ (bits "1010000010").length = 10 ∧ (bits "0111001").length ≠ 8 ∧ (bits "011100101").length ≠ 8 := by decide

/-- Every clause, one bit too few or too many. -/
theorem witness_TripleCipherChecksLengths :
    ((bits "101000001").length ≠ 10 ∨ (bits "01101011101").length ≠ 10)
    ∧ ((bits "1010000010").length = 10 ∧ (bits "0110101110").length = 10 ∧ (bits "101100001").length ≠ 8)
    ∧ (bits "1010000010011010111").length ≠ 20
    ∧ ((bits "10100000100110101110").length = 20 ∧ (bits "1011000").length ≠ 8) := by decide

/-- The hypotheses of TripleCipherComposes and TripleCipherRoundTrip. -/
theorem witness_triple_cipher :
    defaultTables.WF ∧ (bits "1010000010").length = 10 ∧ (bits "0110101110").length = 10 ∧ (bits "01110010").length = 8 :=
  ⟨defaultTables_wf, by decide, by decide, by decide⟩

/-- An operand exactly as long as each table needs. -/
theorem witness_PermutationsComplete :
    (slotVector (⟨10, 0b1010000010⟩ : DataSlot) = .ok (bits "1010000010")
      ∧ tableTop State.reset.tables.p10 ≤ (bits "1010000010").length
      ∧ tableTop State.reset.tables.p8 ≤ (bits "1010000010").length)
    ∧ (slotVector (⟨8, 0b01110010⟩ : DataSlot) = .ok (bits "01110010")
      ∧ tableTop State.reset.tables.ip ≤ (bits "01110010").length
      ∧ tableTop State.reset.tables.ipinv ≤ (bits "01110010").length)
    ∧ slotVector (⟨4, 0b1001⟩ : DataSlot) = .ok (bits "1001")
      ∧ tableTop State.reset.tables.ep ≤ (bits "1001").length ∧ tableTop State.reset.tables.p4 ≤ (bits "1001").length :=
  ⟨⟨by rfl, by decide, by decide⟩, ⟨by rfl, by decide, by decide⟩, by rfl, by decide, by decide⟩

/-- An operand one bit shorter than each table needs. -/
theorem witness_ShortOperandRaisesInvalidTable :
    (slotVector (⟨9, 0b101000001⟩ : DataSlot) = .ok (bits "101000001")
      ∧ (bits "101000001").length < tableTop State.reset.tables.p10
      ∧ (bits "101000001").length < tableTop State.reset.tables.p8)
    ∧ (slotVector (⟨7, 0b0111001⟩ : DataSlot) = .ok (bits "0111001")
      ∧ (bits "0111001").length < tableTop State.reset.tables.ip
      ∧ (bits "0111001").length < tableTop State.reset.tables.ipinv)
    ∧ slotVector (⟨3, 0b100⟩ : DataSlot) = .ok (bits "100")
      ∧ (bits "100").length < tableTop State.reset.tables.ep ∧ (bits "100").length < tableTop State.reset.tables.p4 :=
  ⟨⟨by rfl, by decide, by decide⟩, ⟨by rfl, by decide, by decide⟩, by rfl, by decide, by decide⟩

/-- The last position of a 5-bit operand, and the empty operand. -/
theorem witness_RotateLeftCompletes :
    slotVector (⟨5, 0b10110⟩ : DataSlot) = .ok (bits "10110") ∧ 5 ≤ (bits "10110").length
    ∧ slotVector (⟨0, 0⟩ : DataSlot) = .ok [] := ⟨by rfl, by decide, by rfl⟩

/-- Two empty operands, and operands of 4 and 8 bits. -/
theorem witness_XorCompletesOnEqualLengths :
    (slotVector (⟨0, 0⟩ : DataSlot) = .ok [] ∧ slotVector (⟨0, 0⟩ : AuxSlot) = .ok [])
    ∧ slotVector (⟨4, 0b0111⟩ : DataSlot) = .ok (bits "0111") ∧ slotVector (⟨8, 0b10100100⟩ : AuxSlot) = .ok (bits "10100100")
      ∧ (bits "0111").length ≠ (bits "10100100").length := ⟨⟨by rfl, by rfl⟩, by rfl, by rfl, by decide⟩

/-- Eight bits, and one bit fewer and more. -/
theorem witness_SplitAndSwapComplete :
    (slotVector (⟨8, 0b10101001⟩ : DataSlot) = .ok (bits "10101001") ∧ (bits "10101001").length = 8)
    ∧ (slotVector (⟨7, 0b1010100⟩ : DataSlot) = .ok (bits "1010100") ∧ (bits "1010100").length ≠ 8)
    ∧ slotVector (⟨9, 0b101010011⟩ : DataSlot) = .ok (bits "101010011") ∧ (bits "101010011").length ≠ 8 :=
  ⟨⟨by rfl, by decide⟩, ⟨by rfl, by decide⟩, by rfl, by decide⟩

/-- `0110` is row 0, column 3 (R120); five bits are too many. -/
theorem witness_SboxesComplete :
    (slotVector (⟨4, 0b0110⟩ : DataSlot) = .ok [false, true, true, false]
      ∧ (0 : Fin 4).val = 2 * false.toNat + false.toNat ∧ (3 : Fin 4).val = 2 * true.toNat + true.toNat
      ∧ 2 = ((State.reset.tables.s0.get 0).get 3).val ∧ 3 = ((State.reset.tables.s1.get 0).get 3).val)
    ∧ slotVector (⟨5, 0b01101⟩ : DataSlot) = .ok (bits "01101") ∧ (bits "01101").length ≠ 4 :=
  ⟨⟨by rfl, by decide, by decide, by rfl, by rfl⟩, by rfl, by decide⟩

/-- Keys of 10, 9 and 11 bits. -/
theorem witness_KeyScheduleCompletes :
    (slotVector (⟨10, 0b1010000010⟩ : KeySlot) = .ok (bits "1010000010") ∧ (bits "1010000010").length = 10)
    ∧ (slotVector (⟨9, 0b101000001⟩ : KeySlot) = .ok (bits "101000001") ∧ (bits "101000001").length ≠ 10)
    ∧ slotVector (⟨11, 0b10100000101⟩ : KeySlot) = .ok (bits "10100000101") ∧ (bits "10100000101").length ≠ 10 :=
  ⟨⟨by rfl, by decide⟩, ⟨by rfl, by decide⟩, by rfl, by decide⟩

theorem witness_RoundCompletes :
    (slotVector (⟨8, 0b10101001⟩ : DataSlot) = .ok (bits "10101001") ∧ slotVector (⟨8, 0b10100100⟩ : AuxSlot) = .ok (bits "10100100"))
    ∧ (slotVector (⟨7, 0b1010100⟩ : DataSlot) = .ok (bits "1010100") ∧ (bits "1010100").length ≠ 8)
    ∧ slotVector (⟨7, 0b1010010⟩ : AuxSlot) = .ok (bits "1010010") ∧ (bits "1010010").length ≠ 8 :=
  ⟨⟨by rfl, by rfl⟩, ⟨by rfl, by decide⟩, by rfl, by decide⟩

/-- The hypotheses of SingleCipherCommandsComplete, TripleCipherCommandsComplete and CipherCommandsUndoEachOther. -/
theorem witness_cipher_commands :
    slotVector (⟨10, 0b1010000010⟩ : KeySlot) = .ok (bits "1010000010")
    ∧ slotVector (⟨20, 0b10100000100110101110⟩ : KeySlot) = .ok (bits "10100000100110101110")
    ∧ slotVector (⟨8, 0b01110010⟩ : DataSlot) = .ok (bits "01110010")
    ∧ (bits "1010000010").length = 10 ∧ (bits "10100000100110101110").length = 20 ∧ (bits "01110010").length = 8 :=
  ⟨by rfl, by rfl, by rfl, by decide, by decide, by decide⟩

/-- Every clause of CipherCommandsCheckLengths: a key one bit short of 10 or of 20, and a block one bit short or long. -/
theorem witness_CipherCommandsCheckLengths :
    (slotVector (⟨9, 0b101000001⟩ : KeySlot) = .ok (bits "101000001") ∧ (bits "101000001").length ≠ 10)
    ∧ (slotVector (⟨19, 0b1010000010011010111⟩ : KeySlot) = .ok (bits "1010000010011010111")
      ∧ (bits "1010000010011010111").length ≠ 20)
    ∧ (slotVector (⟨7, 0b0111001⟩ : DataSlot) = .ok (bits "0111001") ∧ (bits "0111001").length ≠ 8)
    ∧ slotVector (⟨9, 0b011100101⟩ : DataSlot) = .ok (bits "011100101") ∧ (bits "011100101").length ≠ 8 :=
  ⟨⟨by rfl, by decide⟩, ⟨by rfl, by decide⟩, ⟨by rfl, by decide⟩, by rfl, by decide⟩

/-- Literals just within and just beyond each field. -/
theorem witness_LiteralsReadBack :
    (bits "10100000100110101110").length ≤ 20 ∧ 20 < (bits "101000001001101011101").length
    ∧ (bits "1010000010").length ≤ 10 ∧ 10 < (bits "10100000101").length := by decide

theorem witness_PseudoInstructionsJoinKeys :
    ("1010000010".toList.length = 10 ∧ "0110101110".toList.length = 10)
    ∧ ("101000001".toList.length ≠ 10 ∨ "01101011101".toList.length ≠ 10)
    ∧ "ENC" ≠ "ENC3" ∧ "ENC" ≠ "DEC3" := by decide

end Sys2Proof.Tests
end

namespace Sys2Proof.Proofs

open Sys2Proof.Machine

/-! ## What an event does

An instruction reads its operands and the tables, and the state only through the tables. So the response to an event is
a function of the tables and the event, and the step writes that response. -/

/-- The result of an instruction from the tables alone: its slots read in order (`30_encoding.md` R61), then its rule. -/
def instrResult (T : Tables) : Instr → Result
  | .permP10 data => do rulePermP10 T (← slotVector data)
  | .permP8 data => do rulePermP8 T (← slotVector data)
  | .permIp data => do rulePermIp T (← slotVector data)
  | .permIpinv data => do rulePermIpinv T (← slotVector data)
  | .permEp data => do rulePermEp T (← slotVector data)
  | .permP4 data => do rulePermP4 T (← slotVector data)
  | .rotl amt data => do ruleRotl (amount amt) (← slotVector data)
  | .xor data aux => do ruleXor (← slotVector data) (← slotVector aux)
  | .split data => do ruleSplit (← slotVector data)
  | .swap data => do ruleSwap (← slotVector data)
  | .sbox0 data => do ruleSbox0 T (← slotVector data)
  | .sbox1 data => do ruleSbox1 T (← slotVector data)
  | .ksched key => do ruleKsched T (← slotVector key)
  | .round data aux => do ruleRound T (← slotVector data) (← slotVector aux)
  | .enc key data => do ruleEnc T (← slotVector key) (← slotVector data)
  | .dec key data => do ruleDec T (← slotVector key) (← slotVector data)
  | .enc3 key data => do ruleEnc3 T (← slotVector key) (← slotVector data)
  | .dec3 key data => do ruleDec3 T (← slotVector key) (← slotVector data)

/-- Every arm of the dispatch ends its command with the instruction's result. -/
theorem exec_eq_finish (i : Instr) (s : State) : exec i s = finish (instrResult s.tables i) s := by
  cases i <;> rfl

theorem exec_eq_writeResp (i : Instr) (s : State) :
    exec i s = .next (writeResp (resultWord (instrResult s.tables i)) s) := by
  rw [exec_eq_finish, finish_eq]

/-- The result of a command word: its instruction's, or INVALID_OP where it decodes to none. -/
def commandResult (T : Tables) (w : CmdWord) : Result :=
  match decode w with
  | .ok i => instrResult T i
  | .error _ => .error .invalidOp

theorem commandResult_of_ok {w : CmdWord} {i : Instr} (h : decode w = .ok i) (T : Tables) :
    commandResult T w = instrResult T i := by
  simp [commandResult, h]

theorem commandResult_of_error {w : CmdWord} {why : Illegal} (h : decode w = .error why) (T : Tables) :
    commandResult T w = .error .invalidOp := by
  simp [commandResult, h]

/-- RESP after an event. -/
def eventResp (T : Tables) : Event → RespWord
  | .command w => resultWord (commandResult T w)
  | .reset => 0

/-- A step that takes the event `e` writes its response and changes nothing else. -/
theorem step_of_pending {s : State} {e : Event} {rest : List Event} (h : s.pending = e :: rest) :
    step s = .next (writeResp (eventResp s.tables e) { s with pending := rest }) := by
  have htake := nextEvent_cons s e rest h
  cases e with
  | reset => simp [step, htake, takeReset_eq, eventResp]
  | command w =>
    cases hw : decode w with
    | ok i => simp [step, htake, hw, exec_eq_writeResp, eventResp, commandResult_of_ok hw]
    | error why =>
      simp [step, htake, hw, illegalCommand_eq, eventResp, commandResult_of_error hw, resultWord]

/-- Settles O15: both steps write `eventResp` of the shared tables and the shared event. -/
theorem responsesAreStateless : Obligations.ResponsesAreStateless := by
  intro s1 s2 e rest1 rest2 hbuilt h1 h2
  refine ⟨_, _, step_of_pending h1, step_of_pending h2, ?_⟩
  simp [State.tables, hbuilt]

/-! ## IP and IPINV -/

/-- For each of the `n` positions, `u` names the entry of `t` that holds it: the relation WF asks of IPINV and IP
(`00_scope.md` R6). -/
def Undoes (u t : IndexTable) (n : Nat) : Prop :=
  ∀ i < n, u[i]?.bind (fun j => t[j - 1]?) = some (i + 1)

/-- Permuting by `t` and then by a table that undoes it gives the vector back. -/
theorem permute_permute_of_undoes {t u : IndexTable} {n : Nat} (ht : t.Fits n n) (hu : u.Fits n n)
    (hut : Undoes u t n) (x : Bits) (hx : x.length = n) :
    ∃ y, permute x t = .ok y ∧ permute y u = .ok x := by
  obtain ⟨y, hy, hylen, hypos⟩ := permute_ok x t (hx ▸ ht.2)
  have hyn : y.length = n := hylen.trans ht.1
  obtain ⟨z, hz, hzlen, hzpos⟩ := permute_ok y u (hyn ▸ hu.2)
  have hzx : z = x := by
    refine List.ext_getElem (by rw [hzlen, hu.1, hx]) fun i hi _ => Option.some_inj.mp ?_
    have hiu : i < u.length := hzlen ▸ hi
    have hpos : 1 ≤ u[i] := (hu.2 _ (List.getElem_mem hiu)).1
    have hback : t[u[i] - 1]? = some (i + 1) := by simpa [hiu] using hut i (hu.1 ▸ hiu)
    calc some z[i] = y.position u[i] := by
          rw [← List.getElem?_eq_getElem hi, hzpos, List.getElem?_eq_getElem hiu, Option.bind_some]
      _ = y[u[i] - 1]? := by rw [← position_succ, Nat.sub_add_cancel hpos]
      _ = x[i]? := by rw [hypos, hback, Option.bind_some, position_succ]
      _ = some x[i] := List.getElem?_eq_getElem _
  exact ⟨y, hy, hzx ▸ hz⟩

/-- A table without repetitions undoes the table that undoes it: the entry `u` names for position `t[i]` holds `t[i]`, so it
is entry `i` itself. -/
theorem Undoes.symm {t u : IndexTable} {n : Nat} (ht : t.Fits n n) (hu : u.Fits n n) (hnodup : t.Nodup)
    (hut : Undoes u t n) : Undoes t u n := by
  intro i hi
  have hit : i < t.length := ht.1 ▸ hi
  obtain ⟨hpos, htop⟩ := ht.2 _ (List.getElem_mem hit)
  have hku : t[i] - 1 < u.length := by rw [hu.1]; omega
  obtain ⟨hupos, -⟩ := hu.2 _ (List.getElem_mem hku)
  have hback : t[u[t[i] - 1] - 1]? = t[i]? := by
    have := hut (t[i] - 1) (by omega)
    simpa [hku, hit, Nat.sub_add_cancel hpos] using this
  have hsame : i = u[t[i] - 1] - 1 := (List.getElem?_inj hit hnodup).mp hback.symm
  simp only [List.getElem?_eq_getElem hit, Option.bind_some, List.getElem?_eq_getElem hku, Option.some_inj]
  omega

/-- Settles O37: WF says that IPINV undoes IP, and IP has no repetitions, so each undoes the other. -/
theorem initialPermutationsAreInverse : Obligations.InitialPermutationsAreInverse := by
  intro T x hT hx
  have hinv : Undoes T.ipinv T.ip 8 := hT.ipinvInverse
  exact ⟨permute_permute_of_undoes hT.ip hT.ipinv hinv x hx,
    permute_permute_of_undoes hT.ipinv hT.ip (hinv.symm hT.ip hT.ipinv hT.ipBijective) x hx⟩

end Sys2Proof.Proofs

namespace Sys2Proof.Proofs

open Sys2Proof.Machine Sys2Proof.Safety

/-! ## The step and its frame -/

/-- Settles O9: the step takes the command and runs what it decodes to. -/
theorem stepRunsDecodedCommand : Obligations.StepRunsDecodedCommand := by
  intro s w rest i hpending hdecode
  simp [step, nextEvent_cons s _ rest hpending, hdecode]

theorem decode_of_decodeTableWord {nbits w : Nat} {i : Instr} (h : decodeTableWord nbits w = some i) :
    decode (BitVec.ofNat 64 (w % 2 ^ nbits)) = .ok i := by
  unfold decodeTableWord at h
  split at h
  · cases h; assumption
  · cases h

/-- Settles O21: the event just presented is the one the step takes, in the state it was presented to. -/
theorem placedCommandRunsNext : Obligations.PlacedCommandRunsNext := by
  intro s nbits w i hi
  simp [step, State.withFetchWord, tableCommand, decode_of_decodeTableWord hi]

/-- Every field of the word zero is zero. -/
theorem fields_of_zero : validOf 0 = 0 ∧ statOf 0 = 0 ∧ reservedOf 0 = 0 ∧ rlenOf 0 = 0 ∧ resOf 0 = 0 := by
  decide

/-- Settles O11: a reset writes zero to RESP and keeps the tables. -/
theorem resetClearsResponse : Obligations.ResetClearsResponse := by
  obtain ⟨hvalid, hstat, hreserved, hrlen, hres⟩ := fields_of_zero
  exact ⟨fun s => ⟨_, takeReset_eq s, rfl, hvalid, hstat, hreserved, hrlen, hres, rfl⟩, reset_resp⟩

/-- Settles O13: every instruction ends by writing the word of its result. -/
theorem instructionsWriteResponseOnly : Obligations.InstructionsWriteResponseOnly :=
  fun i s => ⟨_, exec_eq_writeResp i s⟩

theorem step_of_idle {s : State} (h : s.pending = []) : step s = .next s := by
  simp [step, nextEvent_nil s h, idle]

/-- All that a step can do: nothing while no event is pending, or write the response to the oldest event. -/
theorem step_cases {s t : State} (h : step s = .next t) :
    (s.pending = [] ∧ t = s)
      ∨ ∃ e rest, s.pending = e :: rest ∧ t = writeResp (eventResp s.tables e) { s with pending := rest } := by
  cases hpending : s.pending with
  | nil =>
    rw [step_of_idle hpending] at h
    cases h
    exact .inl ⟨rfl, rfl⟩
  | cons e rest =>
    rw [step_of_pending hpending] at h
    cases h
    exact .inr ⟨e, rest, rfl, rfl⟩

/-- Settles O14: neither way to step writes the tables, and each leaves the tail of the pending events. -/
theorem stepKeepsTables : Obligations.StepKeepsTables := by
  intro s t h
  obtain ⟨hpending, rfl⟩ | ⟨e, rest, hpending, rfl⟩ := step_cases h
  · simp [hpending]
  · simp [hpending]

/-! ## Several cores -/

/-- A step of core `j` steps that core and leaves every other one as it is. -/
theorem stepCore_getElem? (cores : List State) (j k : Nat) :
    (stepCore cores j)[k]? = if j = k then cores[k]?.map stepState else cores[k]? := by
  rw [stepCore, List.getElem?_modify]
  split <;> simp

/-- Settles O20, by induction on the schedule: its first entry is a step of core `k` or leaves core `k` as it is. -/
theorem interleavedCoresAreIndependent : Obligations.InterleavedCoresAreIndependent := by
  intro schedule
  induction schedule with
  | nil =>
    intro cores k
    simp [runInterleaved, stepTimes]
  | cons j rest ih =>
    intro cores k
    have hrest : (runInterleaved (j :: rest) cores)[k]?
        = (stepCore cores j)[k]?.map (stepTimes (rest.count k)) := ih (stepCore cores j) k
    rw [hrest, stepCore_getElem?]
    by_cases hjk : j = k
    · subst hjk
      rw [List.count_cons_self, if_pos rfl, Option.map_map]
      rfl
    · rw [List.count_cons_of_ne hjk, if_neg hjk]

/-! ## The packed result -/

/-- The bit `r.length - p` of a vector's value is the element at position `p`. -/
theorem position_eq_testBit_val (r : Bits) {p : Nat} (h1 : 1 ≤ p) (hp : p ≤ r.length) :
    r.position p = some ((val r).testBit (r.length - p)) := by
  obtain ⟨i, rfl⟩ : ∃ i, p = i + 1 := ⟨p - 1, by omega⟩
  have hbit := vecOf_getElem? r.length (val r) i (by omega)
  rw [vecOf_val] at hbit
  rw [position_succ, hbit, Nat.sub_sub, Nat.add_comm 1 i]

/-- RES is wide enough for the value of a vector of at most 16 bits. -/
theorem resOf_okWord_toNat {r : Bits} (h : r.length ≤ 16) : (resOf (okWord r)).toNat = val r := by
  have hlt : val r < 2 ^ 16 := (val_lt r).trans_le (Nat.pow_le_pow_right (by decide) h)
  rw [okWord, resOf_respWord, BitVec.toNat_ofNat, Nat.mod_eq_of_lt hlt]

theorem rlenOf_okWord_toNat {r : Bits} (h : r.length ≤ 16) : (rlenOf (okWord r)).toNat = r.length := by
  rw [okWord, rlenOf_respWord, BitVec.toNat_ofNat, Nat.mod_eq_of_lt (by omega)]

/-- Settles O22: RLEN and RES hold the length and the value of the vector, and a vector is read back from these two. -/
theorem packedResultReadsBack : Obligations.PackedResultReadsBack := by
  intro r hr
  have hrlen := rlenOf_okWord_toNat hr
  have hres := resOf_okWord_toNat hr
  refine ⟨validOf_respWord .., statOf_respWord .., reservedOf_respWord .., hrlen, ?_, ?_, ?_⟩
  · intro p h1 hp
    rw [position_eq_testBit_val r h1 hp, BitVec.getLsbD, hres]
  · intro j hj
    rw [BitVec.getLsbD, hres]
    exact Nat.testBit_lt_two_pow ((val_lt r).trans_le (Nat.pow_le_pow_right (by decide) hj))
  · rw [resultOf, hrlen, hres, vecOf_val]

/-! ## Encoder and decoder on fields -/

/-- An encoding passes every check of the decoder, whatever stands in the slots it uses. -/
theorem decodeFields_encodeFields (i : Instr) : decodeFields (encodeFields i) = .ok i := by
  cases i <;> rfl

/-! Fields accepted by a usage pattern are the encoding of the instruction they are read as, where that instruction's encoding
has operation code `c` and the pattern's shape. -/

theorem encodeFields_of_onlyData {f : Fields} {mk : DataSlot → Instr} {i : Instr} {c : BitVec 5}
    (h : f.onlyData mk = .ok i) (hmk : ∀ d, encodeFields (mk d) = ⟨c, 0, .zero, d, .zero, 0⟩)
    (hop : f.op.toNat = c.toNat) (hreserved : f.reserved = 0) : encodeFields i = f := by
  obtain ⟨op, amt, key, data, aux, reserved⟩ := f
  obtain rfl := BitVec.eq_of_toNat_eq hop
  obtain rfl := hreserved
  obtain ⟨rfl, rfl, rfl, rfl⟩ := onlyData_ok h
  exact hmk _

theorem encodeFields_of_amtData {f : Fields} {mk : BitVec 3 → DataSlot → Instr} {i : Instr} {c : BitVec 5}
    (h : f.amtData mk = .ok i) (hmk : ∀ k d, encodeFields (mk k d) = ⟨c, k, .zero, d, .zero, 0⟩)
    (hop : f.op.toNat = c.toNat) (hreserved : f.reserved = 0) : encodeFields i = f := by
  obtain ⟨op, amt, key, data, aux, reserved⟩ := f
  obtain rfl := BitVec.eq_of_toNat_eq hop
  obtain rfl := hreserved
  obtain ⟨rfl, rfl, rfl⟩ := amtData_ok h
  exact hmk _ _

theorem encodeFields_of_dataAux {f : Fields} {mk : DataSlot → AuxSlot → Instr} {i : Instr} {c : BitVec 5}
    (h : f.dataAux mk = .ok i) (hmk : ∀ d a, encodeFields (mk d a) = ⟨c, 0, .zero, d, a, 0⟩)
    (hop : f.op.toNat = c.toNat) (hreserved : f.reserved = 0) : encodeFields i = f := by
  obtain ⟨op, amt, key, data, aux, reserved⟩ := f
  obtain rfl := BitVec.eq_of_toNat_eq hop
  obtain rfl := hreserved
  obtain ⟨rfl, rfl, rfl⟩ := dataAux_ok h
  exact hmk _ _

theorem encodeFields_of_onlyKey {f : Fields} {mk : KeySlot → Instr} {i : Instr} {c : BitVec 5}
    (h : f.onlyKey mk = .ok i) (hmk : ∀ k, encodeFields (mk k) = ⟨c, 0, k, .zero, .zero, 0⟩)
    (hop : f.op.toNat = c.toNat) (hreserved : f.reserved = 0) : encodeFields i = f := by
  obtain ⟨op, amt, key, data, aux, reserved⟩ := f
  obtain rfl := BitVec.eq_of_toNat_eq hop
  obtain rfl := hreserved
  obtain ⟨rfl, rfl, rfl, rfl⟩ := onlyKey_ok h
  exact hmk _

theorem encodeFields_of_keyData {f : Fields} {mk : KeySlot → DataSlot → Instr} {i : Instr} {c : BitVec 5}
    (h : f.keyData mk = .ok i) (hmk : ∀ k d, encodeFields (mk k d) = ⟨c, 0, k, d, .zero, 0⟩)
    (hop : f.op.toNat = c.toNat) (hreserved : f.reserved = 0) : encodeFields i = f := by
  obtain ⟨op, amt, key, data, aux, reserved⟩ := f
  obtain rfl := BitVec.eq_of_toNat_eq hop
  obtain rfl := hreserved
  obtain ⟨rfl, rfl, rfl⟩ := keyData_ok h
  exact hmk _ _

/-- Fields that decode are those of the instruction they decode to. -/
theorem encodeFields_of_decodeFields {f : Fields} {i : Instr} (h : decodeFields f = .ok i) : encodeFields i = f := by
  unfold decodeFields at h
  split at h
  · cases h
  next hreserved =>
  rw [not_not] at hreserved
  split at h
  next hop => exact encodeFields_of_onlyData h (fun _ => rfl) hop hreserved
  next hop => exact encodeFields_of_onlyData h (fun _ => rfl) hop hreserved
  next hop => exact encodeFields_of_onlyData h (fun _ => rfl) hop hreserved
  next hop => exact encodeFields_of_onlyData h (fun _ => rfl) hop hreserved
  next hop => exact encodeFields_of_onlyData h (fun _ => rfl) hop hreserved
  next hop => exact encodeFields_of_onlyData h (fun _ => rfl) hop hreserved
  next hop => exact encodeFields_of_amtData h (fun _ _ => rfl) hop hreserved
  next hop => exact encodeFields_of_dataAux h (fun _ _ => rfl) hop hreserved
  next hop => exact encodeFields_of_onlyData h (fun _ => rfl) hop hreserved
  next hop => exact encodeFields_of_onlyData h (fun _ => rfl) hop hreserved
  next hop => exact encodeFields_of_onlyData h (fun _ => rfl) hop hreserved
  next hop => exact encodeFields_of_onlyData h (fun _ => rfl) hop hreserved
  next hop => exact encodeFields_of_onlyKey h (fun _ => rfl) hop hreserved
  next hop => exact encodeFields_of_dataAux h (fun _ _ => rfl) hop hreserved
  next hop => exact encodeFields_of_keyData h (fun _ _ => rfl) hop hreserved
  next hop => exact encodeFields_of_keyData h (fun _ _ => rfl) hop hreserved
  next hop => exact encodeFields_of_keyData h (fun _ _ => rfl) hop hreserved
  next hop => exact encodeFields_of_keyData h (fun _ _ => rfl) hop hreserved
  · cases h

/-! ## The match and mask table on fields -/

/-- The fields `f` as row `r` would have them: its operation code, and zero in every part it does not use
(`30_encoding.md` R63). -/
def rowFields (r : Row) (f : Fields) : Fields :=
  { op := r.op
    amt := if .amt ∈ r.uses then f.amt else 0
    key := if .key ∈ r.uses then f.key else .zero
    data := if .data ∈ r.uses then f.data else .zero
    aux := if .aux ∈ r.uses then f.aux else .zero
    reserved := 0 }

/-- A slot of ones in every bit of its tag and its field. -/
def onesSlot {t w : Nat} : Slot t w := { len := BitVec.allOnes t, field := BitVec.allOnes w }

/-- The fields of a row's mask: ones in the operation code, the reserved bits and every part the row does not use. -/
def maskFields (uses : List Part) : Fields :=
  { op := BitVec.allOnes 5
    amt := if .amt ∈ uses then 0 else BitVec.allOnes 3
    key := if .key ∈ uses then .zero else onesSlot
    data := if .data ∈ uses then .zero else onesSlot
    aux := if .aux ∈ uses then .zero else onesSlot
    reserved := BitVec.allOnes 3 }

/-- The fields of a row's pattern: its operation code and zeros. -/
def patternFields (op : BitVec 5) : Fields :=
  { op := op, amt := 0, key := .zero, data := .zero, aux := .zero, reserved := 0 }

/-- The columns of the table are made of the operation codes and the usage of its rows. -/
theorem rows_columns :
    ∀ r ∈ rows, r.pattern = (patternFields r.op).toWord ∧ r.mask = (maskFields r.uses).toWord := by
  decide

/-- The bitwise AND of two slots, as the AND of two words acts on them. -/
def andSlot {t w : Nat} (s s' : Slot t w) : Slot t w := { len := s.len &&& s'.len, field := s.field &&& s'.field }

/-- The bitwise AND of two records of fields, as the AND of two words acts on them (`ofWord_and`). -/
def andFields (f g : Fields) : Fields :=
  { op := f.op &&& g.op
    amt := f.amt &&& g.amt
    key := andSlot f.key g.key
    data := andSlot f.data g.data
    aux := andSlot f.aux g.aux
    reserved := f.reserved &&& g.reserved }

theorem ofWord_and (w w' : CmdWord) : Fields.ofWord (w &&& w') = andFields (Fields.ofWord w) (Fields.ofWord w') := by
  simp [Fields.ofWord, andFields, andSlot, BitVec.extractLsb'_and]

theorem ofWord_injective {w w' : CmdWord} (h : Fields.ofWord w = Fields.ofWord w') : w = w' := by
  rw [← toWord_of_fields w, h, toWord_of_fields]

/-- A masked part is zero when it is used, where the mask is zero, or when it is zero itself. -/
theorem and_mask_eq_zero_iff {n : Nat} (used : Prop) [Decidable used] (x : BitVec n) :
    x &&& (if used then 0 else BitVec.allOnes n) = 0 ↔ x = if used then x else 0 := by
  split <;> simp

theorem andSlot_mask_eq_zero_iff {t w : Nat} (used : Prop) [Decidable used] (s : Slot t w) :
    andSlot s (if used then .zero else onesSlot) = .zero ↔ s = if used then s else .zero := by
  obtain ⟨len, field⟩ := s
  split <;> simp [andSlot, onesSlot, Slot.zero]

theorem masked_eq_pattern_iff (r : Row) (f : Fields) :
    andFields f (maskFields r.uses) = patternFields r.op ↔ f = rowFields r f := by
  obtain ⟨op, amt, key, data, aux, reserved⟩ := f
  simp only [andFields, maskFields, patternFields, rowFields, Fields.mk.injEq, and_mask_eq_zero_iff,
    andSlot_mask_eq_zero_iff, BitVec.and_allOnes]

/-- A word selects a row of the table exactly when its fields are as that row has them. -/
theorem selects_iff {r : Row} (hr : r ∈ rows) (w : CmdWord) :
    r.selects w = true ↔ Fields.ofWord w = rowFields r (Fields.ofWord w) := by
  obtain ⟨hpattern, hmask⟩ := rows_columns r hr
  calc r.selects w = true
      ↔ w &&& (maskFields r.uses).toWord = (patternFields r.op).toWord := by
        rw [Row.selects, beq_iff_eq, hpattern, hmask]
    _ ↔ Fields.ofWord (w &&& (maskFields r.uses).toWord) = Fields.ofWord (patternFields r.op).toWord :=
        ⟨congrArg _, ofWord_injective⟩
    _ ↔ andFields (Fields.ofWord w) (maskFields r.uses) = patternFields r.op := by
        rw [ofWord_and, fields_of_toWord, fields_of_toWord]
    _ ↔ Fields.ofWord w = rowFields r (Fields.ofWord w) := masked_eq_pattern_iff r _

/-- Steps 2 to 4 of R61 for a row and the fields of a word. -/
def rowResult (T : Tables) (r : Row) (f : Fields) : Result := do
  let K ← usedVector (r.uses.contains .key) f.key
  let D ← usedVector (r.uses.contains .data) f.data
  let A ← usedVector (r.uses.contains .aux) f.aux
  evaluate T r.op K D A (amount f.amt)

/-- Fields as a row has them encode an instruction, and the row evaluates to that instruction's result. -/
theorem exists_instr_of_row {r : Row} (hr : r ∈ rows) {f : Fields} (hf : f = rowFields r f) :
    ∃ i, encodeFields i = f ∧ ∀ T, rowResult T r (encodeFields i) = instrResult T i := by
  simp only [rows, List.mem_cons, List.not_mem_nil, or_false] at hr
  rcases hr with rfl | rfl | rfl | rfl | rfl | rfl | rfl | rfl | rfl | rfl | rfl | rfl | rfl | rfl | rfl | rfl | rfl | rfl
  · exact ⟨.permP10 f.data, hf.symm, fun _ => rfl⟩
  · exact ⟨.permP8 f.data, hf.symm, fun _ => rfl⟩
  · exact ⟨.permIp f.data, hf.symm, fun _ => rfl⟩
  · exact ⟨.permIpinv f.data, hf.symm, fun _ => rfl⟩
  · exact ⟨.permEp f.data, hf.symm, fun _ => rfl⟩
  · exact ⟨.permP4 f.data, hf.symm, fun _ => rfl⟩
  · exact ⟨.rotl f.amt f.data, hf.symm, fun _ => rfl⟩
  · exact ⟨.xor f.data f.aux, hf.symm, fun _ => rfl⟩
  · exact ⟨.split f.data, hf.symm, fun _ => rfl⟩
  · exact ⟨.swap f.data, hf.symm, fun _ => rfl⟩
  · exact ⟨.sbox0 f.data, hf.symm, fun _ => rfl⟩
  · exact ⟨.sbox1 f.data, hf.symm, fun _ => rfl⟩
  · exact ⟨.ksched f.key, hf.symm, fun _ => rfl⟩
  · exact ⟨.round f.data f.aux, hf.symm, fun _ => rfl⟩
  · exact ⟨.enc f.key f.data, hf.symm, fun _ => rfl⟩
  · exact ⟨.dec f.key f.data, hf.symm, fun _ => rfl⟩
  · exact ⟨.enc3 f.key f.data, hf.symm, fun _ => rfl⟩
  · exact ⟨.dec3 f.key f.data, hf.symm, fun _ => rfl⟩

/-- The row with an instruction's operation code has the instruction's fields. -/
theorem exists_row_of_instr (i : Instr) : ∃ r ∈ rows, encodeFields i = rowFields r (encodeFields i) := by
  obtain ⟨r, hfind, hfields⟩ : ∃ r, rows.find? (fun r => r.op == opOf i) = some r
      ∧ encodeFields i = rowFields r (encodeFields i) := by
    cases i <;> exact ⟨_, rfl, rfl⟩
  exact ⟨r, List.mem_of_find?_eq_some hfind, hfields⟩

/-! ## The response to a word -/

theorem respondResult_of_row {w : CmdWord} {r : Row} (h : rows.find? (fun r => r.selects w) = some r) (T : Tables) :
    respondResult T w = rowResult T r (Fields.ofWord w) := by
  rw [respondResult, h]
  rfl

theorem respondResult_of_no_row {w : CmdWord} (h : rows.find? (fun r => r.selects w) = none) (T : Tables) :
    respondResult T w = .error .invalidOp := by
  rw [respondResult, h]

/-- A word that selects no row does not decode: the encoding of an instruction selects that instruction's row. -/
theorem decode_ne_ok_of_no_row {w : CmdWord} (h : rows.find? (fun r => r.selects w) = none) (i : Instr) :
    decode w ≠ .ok i := by
  intro hdecode
  obtain ⟨r, hr, hfields⟩ := exists_row_of_instr i
  rw [encodeFields_of_decodeFields hdecode] at hfields
  exact List.find?_eq_none.mp h r hr ((selects_iff hr w).mpr hfields)

/-- R61 written over the match and mask table agrees with the decoder and the dispatch. -/
theorem respondResult_eq_commandResult (T : Tables) (w : CmdWord) : respondResult T w = commandResult T w := by
  cases hfind : rows.find? (fun r => r.selects w) with
  | none =>
    rw [respondResult_of_no_row hfind]
    cases hdecode : decode w with
    | ok i => exact absurd hdecode (decode_ne_ok_of_no_row hfind i)
    | error why => rw [commandResult_of_error hdecode]
  | some r =>
    have hr : r ∈ rows := List.mem_of_find?_eq_some hfind
    have hselects : r.selects w = true := List.find?_some (p := fun r => Row.selects r w) hfind
    obtain ⟨i, hi, hresult⟩ := exists_instr_of_row hr ((selects_iff hr w).mp hselects)
    have hdecode : decode w = .ok i := by rw [decode, ← hi, decodeFields_encodeFields]
    rw [respondResult_of_row hfind, commandResult_of_ok hdecode, ← hi, hresult]

theorem respondEvent_eq_eventResp (T : Tables) (e : Event) : respondEvent T e = eventResp T e := by
  cases e with
  | reset => rfl
  | command w => rw [respondEvent, respond, respondResult_eq_commandResult, eventResp]

/-- Settles O10: the step writes the response to the event it takes, which is R61's. -/
theorem stepWritesRespond : Obligations.StepWritesRespond := by
  refine ⟨fun s w rest h => ?_, fun s rest h => step_of_pending h, fun s h => step_of_idle h⟩
  rw [step_of_pending h, ← respondEvent_eq_eventResp]
  rfl

/-! ## Lengths of results

Where a function answers a vector, how long that vector is. -/

theorem permute_length {x y : Bits} {t : IndexTable} (h : permute x t = .ok y) : y.length = t.length := by
  obtain ⟨z, hz, hlen, -⟩ | ⟨herr, -⟩ := permute_cases x t
  · rw [hz] at h
    cases h
    exact hlen
  · rw [herr] at h
    cases h

theorem xor_length {a b y : Bits} (h : Machine.xor a b = .ok y) : y.length = a.length := by
  unfold Machine.xor at h
  split at h
  · next hab =>
    cases h
    simp [hab]
  · cases h

/-- Splitting answers for a vector of eight bits only, and with halves that join to it. -/
theorem splitHalves_append_eq {x L R : Bits} (h : splitHalves x = .ok (L, R)) : L ++ R = x ∧ x.length = 8 := by
  unfold splitHalves at h
  split at h
  · next hx =>
    cases h
    exact ⟨List.take_append_drop _ x, hx⟩
  · cases h

theorem swapHalves_length {x y : Bits} (h : swapHalves x = .ok y) : y.length = 8 := by
  unfold swapHalves at h
  split at h
  · next hx =>
    cases h
    rw [List.length_append, Nat.add_comm, ← List.length_append, List.take_append_drop]
    exact hx
  · cases h

theorem sBoxLookup_length {b y : Bits} {S : SBox} (h : sBoxLookup b S = .ok y) : y.length = 2 := by
  by_cases hb : b.length = 4
  · obtain ⟨z, hz, hlen⟩ := sBoxLookup_ok b S hb
    rw [hz] at h
    cases h
    exact hlen
  · rw [sBoxLookup_malformed b S hb] at h
    cases h

/-- Two checks, then the value: how every function and operation of the ciphers starts. -/
theorem afterTwoChecks_ok {c d : Bool} {e e' : Err} {x : Result} {r : Bits}
    (h : (require c e >>= fun _ => require d e' >>= fun _ => x) = .ok r) : x = .ok r := by
  obtain ⟨_, -, h⟩ := bind_eq_ok h
  obtain ⟨_, -, h⟩ := bind_eq_ok h
  exact h

theorem ruleKsched_length {T : Tables} {K r : Bits} (h : ruleKsched T K = .ok r) :
    r.length = T.p8.length + T.p8.length := by
  obtain ⟨_, -, h⟩ := bind_eq_ok h
  obtain ⟨⟨SK1, SK2⟩, hkeys, h⟩ := bind_eq_ok h
  cases h
  obtain ⟨_, -, hkeys⟩ := bind_eq_ok hkeys
  obtain ⟨p, -, hkeys⟩ := bind_eq_ok hkeys
  obtain ⟨_, hsk1, hkeys⟩ := bind_eq_ok hkeys
  obtain ⟨_, hsk2, hkeys⟩ := bind_eq_ok hkeys
  cases hkeys
  rw [List.length_append, permute_length hsk1, permute_length hsk2]

/-- The mask has as many bits as P4 has entries. -/
theorem mask_length {T : Tables} {R sk m : Bits} (h : mask T R sk = .ok m) : m.length = T.p4.length := by
  obtain ⟨_, -, h⟩ := bind_eq_ok h
  obtain ⟨_, -, h⟩ := bind_eq_ok h
  obtain ⟨⟨tl, tr⟩, -, h⟩ := bind_eq_ok h
  obtain ⟨_, -, h⟩ := bind_eq_ok h
  obtain ⟨_, -, h⟩ := bind_eq_ok h
  exact permute_length h

theorem round_length_le {T : Tables} {s sk r : Bits} (h : round T s sk = .ok r) :
    r.length ≤ T.p4.length + 8 := by
  obtain ⟨⟨L, R⟩, hhalves, h⟩ := bind_eq_ok h
  obtain ⟨m, hmask, h⟩ := bind_eq_ok h
  obtain ⟨L', hxor, h⟩ := bind_eq_ok h
  cases h
  obtain ⟨rfl, hlen⟩ := splitHalves_append_eq hhalves
  rw [List.length_append] at hlen
  rw [List.length_append, xor_length hxor, mask_length hmask]
  omega

theorem twoRounds_length {T : Tables} {k1 k2 x y : Bits} (h : twoRounds T k1 k2 x = .ok y) :
    y.length = T.ipinv.length := by
  obtain ⟨_, -, h⟩ := bind_eq_ok h
  obtain ⟨_, -, h⟩ := bind_eq_ok h
  obtain ⟨_, -, h⟩ := bind_eq_ok h
  obtain ⟨_, -, h⟩ := bind_eq_ok h
  exact permute_length h

theorem encrypt_length {T : Tables} {k p c : Bits} (h : encrypt T k p = .ok c) : c.length = T.ipinv.length := by
  replace h := afterTwoChecks_ok h
  obtain ⟨⟨SK1, SK2⟩, -, h⟩ := bind_eq_ok h
  exact twoRounds_length h

theorem decrypt_length {T : Tables} {k c p : Bits} (h : decrypt T k c = .ok p) : p.length = T.ipinv.length := by
  replace h := afterTwoChecks_ok h
  obtain ⟨⟨SK1, SK2⟩, -, h⟩ := bind_eq_ok h
  exact twoRounds_length h

theorem encrypt3_length {T : Tables} {k1 k2 p c : Bits} (h : encrypt3 T k1 k2 p = .ok c) :
    c.length = T.ipinv.length := by
  replace h := afterTwoChecks_ok h
  obtain ⟨_, -, h⟩ := bind_eq_ok h
  obtain ⟨_, -, h⟩ := bind_eq_ok h
  exact encrypt_length h

theorem decrypt3_length {T : Tables} {k c p : Bits} (h : decrypt3 T k c = .ok p) : p.length = T.ipinv.length := by
  replace h := afterTwoChecks_ok h
  obtain ⟨_, -, h⟩ := bind_eq_ok h
  obtain ⟨_, -, h⟩ := bind_eq_ok h
  exact decrypt_length h

/-- An operation on one slot answers with its rule's value on the slot's vector. -/
theorem oneSlot_ok {t w : Nat} {s : Slot t w} {f : Bits → Result} {r : Bits}
    (h : (slotVector s >>= f) = .ok r) : ∃ D : Bits, D.length ≤ w ∧ f D = .ok r := by
  obtain ⟨D, hD, h⟩ := bind_eq_ok h
  obtain ⟨-, -, -, hlen⟩ := slotVector_ok s D hD
  exact ⟨D, hlen, h⟩

/-- An operation on two slots answers with its rule's value on the two vectors. -/
theorem twoSlots_ok {t w t' w' : Nat} {s : Slot t w} {s' : Slot t' w'} {f : Bits → Bits → Result} {r : Bits}
    (h : (slotVector s >>= fun D => slotVector s' >>= f D) = .ok r) :
    ∃ D A : Bits, D.length ≤ w ∧ A.length ≤ w' ∧ f D A = .ok r := by
  obtain ⟨D, hD, h⟩ := oneSlot_ok h
  obtain ⟨A, hA, h⟩ := oneSlot_ok h
  exact ⟨D, A, hD, hA, h⟩

theorem permSlot_length_le {t w : Nat} {s : Slot t w} {tab : IndexTable} {len top : Nat} {r : Bits}
    (htab : tab.Fits len top) (hlen : len ≤ 16) (h : (slotVector s >>= fun D => permute D tab) = .ok r) :
    r.length ≤ 16 := by
  obtain ⟨D, -, h⟩ := oneSlot_ok h
  rw [permute_length h, htab.1]
  exact hlen

theorem sboxSlot_length_le {t w : Nat} {s : Slot t w} {S : SBox} {r : Bits}
    (h : (slotVector s >>= fun D => sBoxLookup D S) = .ok r) : r.length ≤ 16 := by
  obtain ⟨D, -, h⟩ := oneSlot_ok h
  rw [sBoxLookup_length h]
  decide

/-- A cipher operation whose rule ends with IPINV answers eight bits. -/
theorem cipherSlots_length_le {T : Tables} (hT : T.WF) {key : KeySlot} {data : DataSlot} {rule : Bits → Bits → Result}
    {r : Bits} (hrule : ∀ K D r, rule K D = .ok r → r.length = T.ipinv.length)
    (h : (slotVector key >>= fun K => slotVector data >>= rule K) = .ok r) : r.length ≤ 16 := by
  obtain ⟨K, D, -, -, h⟩ := twoSlots_ok h
  rw [hrule K D r h, hT.ipinv.1]
  decide

/-- With well-formed tables every result fits RES: it has at most 16 bits. KSCHED reaches that bound. -/
theorem instrResult_length_le {T : Tables} (hT : T.WF) {i : Instr} {r : Bits} (h : instrResult T i = .ok r) :
    r.length ≤ 16 := by
  have hp8 := hT.p8.1
  have hp4 := hT.p4.1
  cases i with
  | permP10 data => exact permSlot_length_le hT.p10 (by decide) h
  | permP8 data => exact permSlot_length_le hT.p8 (by decide) h
  | permIp data => exact permSlot_length_le hT.ip (by decide) h
  | permIpinv data => exact permSlot_length_le hT.ipinv (by decide) h
  | permEp data => exact permSlot_length_le hT.ep (by decide) h
  | permP4 data => exact permSlot_length_le hT.p4 (by decide) h
  | rotl amt data =>
    obtain ⟨D, hD, h⟩ := oneSlot_ok h
    cases h
    rw [rotateLeft_length]
    omega
  | xor data aux =>
    obtain ⟨D, A, hD, -, h⟩ := twoSlots_ok h
    have := xor_length h
    omega
  | split data =>
    obtain ⟨D, -, h⟩ := oneSlot_ok h
    obtain ⟨⟨L, R⟩, hhalves, h⟩ := bind_eq_ok h
    cases h
    obtain ⟨happend, hlen⟩ := splitHalves_append_eq hhalves
    rw [happend]
    omega
  | swap data =>
    obtain ⟨D, -, h⟩ := oneSlot_ok h
    have := swapHalves_length h
    omega
  | sbox0 data => exact sboxSlot_length_le h
  | sbox1 data => exact sboxSlot_length_le h
  | ksched key =>
    obtain ⟨K, -, h⟩ := oneSlot_ok h
    have := ruleKsched_length h
    omega
  | round data aux =>
    obtain ⟨D, A, -, -, h⟩ := twoSlots_ok h
    have := round_length_le (afterTwoChecks_ok h)
    omega
  | enc key data => exact cipherSlots_length_le hT (fun _ _ _ h => encrypt_length (afterTwoChecks_ok h)) h
  | dec key data => exact cipherSlots_length_le hT (fun _ _ _ h => decrypt_length (afterTwoChecks_ok h)) h
  | enc3 key data => exact cipherSlots_length_le hT (fun _ _ _ h => encrypt3_length (afterTwoChecks_ok h)) h
  | dec3 key data => exact cipherSlots_length_le hT (fun _ _ _ h => decrypt3_length (afterTwoChecks_ok h)) h

/-! ## RESP stays legal -/

theorem commandResult_length_le {T : Tables} (hT : T.WF) {w : CmdWord} {r : Bits} (h : commandResult T w = .ok r) :
    r.length ≤ 16 := by
  cases hw : decode w with
  | ok i =>
    rw [commandResult_of_ok hw] at h
    exact instrResult_length_le hT h
  | error why =>
    rw [commandResult_of_error hw] at h
    cases h

theorem respLegal_zero : RespLegal 0 := by
  obtain ⟨-, hstat, hreserved, hrlen, hres⟩ := fields_of_zero
  exact
    { reserved := hreserved
      stat := by rw [hstat]; decide
      rlen := by rw [hrlen]; decide
      res := by rw [hres, hrlen]; decide
      noValueOnError := fun _ => ⟨hrlen, hres⟩
      noCommand := fun _ => rfl }

theorem respLegal_errorWord (e : Err) : RespLegal (errorWord e) where
  reserved := reservedOf_respWord ..
  stat := by
    rw [errorWord, statOf_respWord]
    cases e <;> decide
  rlen := by simp [errorWord, rlenOf_respWord]
  res := by simp [errorWord, rlenOf_respWord, resOf_respWord]
  noValueOnError _ := ⟨rlenOf_respWord .., resOf_respWord ..⟩
  noCommand h := by simp [errorWord, validOf_respWord] at h

/-- A packed result is legal because its value is below two to the power of its length. -/
theorem respLegal_okWord {r : Bits} (h : r.length ≤ 16) : RespLegal (okWord r) where
  reserved := reservedOf_respWord ..
  stat := by simp [okWord, statOf_respWord]
  rlen := by rwa [rlenOf_okWord_toNat h]
  res := by
    rw [resOf_okWord_toNat h, rlenOf_okWord_toNat h]
    exact val_lt r
  noValueOnError hstat := absurd (statOf_respWord ..) hstat
  noCommand h := by simp [okWord, validOf_respWord] at h

/-- The word of a result that fits RES is legal. -/
theorem respLegal_resultWord {x : Result} (h : ∀ r, x = .ok r → r.length ≤ 16) : RespLegal (resultWord x) := by
  cases x with
  | ok r => exact respLegal_okWord (h r rfl)
  | error e => exact respLegal_errorWord e

theorem validOf_resultWord (x : Result) : validOf (resultWord x) = 1 := by
  cases x with
  | ok r => exact validOf_respWord ..
  | error e => exact validOf_respWord ..

theorem respLegal_eventResp {T : Tables} (hT : T.WF) (e : Event) : RespLegal (eventResp T e) := by
  cases e with
  | reset => exact respLegal_zero
  | command w => exact respLegal_resultWord fun _ => commandResult_length_le hT

/-- Settles O17: RESP is zero at reset. -/
theorem resetResponseLegal : Obligations.ResetResponseLegal :=
  respLegal_zero

/-- Settles O16: a step leaves RESP as it is or writes the response to an event, which is legal under the tables of every
build. -/
theorem stepKeepsResponseLegal : Obligations.StepKeepsResponseLegal := by
  intro s t hs h
  obtain ⟨-, rfl⟩ | ⟨e, rest, -, rfl⟩ := step_cases h
  · exact hs
  · exact respLegal_eventResp s.built.wf e

/-- Settles O18: the response to a command is legal, and VALID is set in the word of every result. -/
theorem commandLeavesValidResponse : Obligations.CommandLeavesValidResponse := by
  intro s t w rest hpending h
  rw [step_of_pending hpending] at h
  cases h
  exact ⟨respLegal_eventResp s.built.wf (.command w), validOf_resultWord _⟩

end Sys2Proof.Proofs

namespace Sys2Proof.Proofs

open Sys2Proof.Machine Sys2Proof.Safety

/-! ## A run of events -/

/-- A run whose first step answers `t` goes on from `t`. -/
theorem run_succ_of_step {M : Host.Core} {s t : M.State} (h : M.step s = .next t) (k : Nat) :
    M.run (k + 1) s = M.run k t := by
  rw [Host.Core.run, h]

/-- Each event's response replaces what RESP held, so the events after it start from that response. -/
theorem endResp_cons (T : Tables) (r : RespWord) (e : Event) (rest : List Event) :
    endResp T r (e :: rest) = endResp T (respondEvent T e) rest := by
  induction rest generalizing r e with
  | nil => rfl
  | cons e' rest ih => rw [endResp, ih r e', ih (respondEvent T e) e']

/-- Settles O19, by induction on the events: the first step writes the response to the first event, and the run of the
others starts from that response under the same tables. -/
theorem runEndsWithLastResponse : Obligations.RunEndsWithLastResponse := by
  intro events
  induction events with
  | nil =>
    rintro ⟨resp, built, pending⟩ rfl
    rfl
  | cons e rest ih =>
    intro s hpending
    rw [List.length_cons, run_succ_of_step (M := core) (step_of_pending hpending), ih _ rfl, endResp_cons,
      respondEvent_eq_eventResp]
    rfl

end Sys2Proof.Proofs

namespace Sys2Proof.Proofs

open Sys2Proof.Machine Sys2Proof.Safety

/-! ## Words and instructions -/

/-- A word decodes to an instruction exactly when its fields are that instruction's. -/
theorem decode_eq_ok_iff {w : CmdWord} {i : Instr} : decode w = .ok i ↔ encodeFields i = Fields.ofWord w := by
  constructor
  · exact encodeFields_of_decodeFields
  · intro h
    rw [decode, ← h, decodeFields_encodeFields]

/-- Settles O1: the fields of the encoded word are the instruction's, and these pass the decoder's checks. -/
theorem decodeOfEncode : Obligations.DecodeOfEncode :=
  fun i => decode_eq_ok_iff.mpr (fields_of_toWord (encodeFields i)).symm

/-- Settles O2: the fields of a word that decodes are the instruction's, and a word is made of its fields. -/
theorem encodeOfDecode : Obligations.EncodeOfDecode := by
  intro w i h
  rw [encode, decode_eq_ok_iff.mp h, toWord_of_fields]

/-! ## The rows of the match and mask table -/

theorem selects_eq_true_iff (r : Row) (w : CmdWord) : r.selects w = true ↔ w &&& r.mask = r.pattern :=
  beq_iff_eq

/-- The operation code names the row. -/
theorem row_eq_of_op_eq : ∀ r ∈ rows, ∀ q ∈ rows, r.op = q.op → r = q := by
  decide

/-- A word that selects a row has the row's operation code. -/
theorem op_of_selects {r : Row} (hr : r ∈ rows) {w : CmdWord} (h : r.selects w = true) : (Fields.ofWord w).op = r.op :=
  congrArg Fields.op ((selects_iff hr w).mp h)

/-- The instruction read from a word that selects a row has the row's operation code, and the word of an instruction
selects the one row that has the instruction's code. -/
theorem selects_iff_decode {r : Row} (hr : r ∈ rows) (w : CmdWord) :
    r.selects w = true ↔ ∃ i, decode w = .ok i ∧ opOf i = r.op := by
  constructor
  · intro h
    obtain ⟨i, hi, -⟩ := exists_instr_of_row hr ((selects_iff hr w).mp h)
    exact ⟨i, decode_eq_ok_iff.mpr hi, by rw [opOf, hi, op_of_selects hr h]⟩
  · rintro ⟨i, hdecode, hop⟩
    obtain ⟨q, hq, hfields⟩ := exists_row_of_instr i
    have hqop : q.op = r.op := (congrArg Fields.op hfields).symm.trans hop
    obtain rfl := row_eq_of_op_eq q hq r hr hqop
    rw [decode_eq_ok_iff.mp hdecode] at hfields
    exact (selects_iff hr w).mpr hfields

/-- A word decodes when it selects some row. -/
theorem exists_decode_iff_selects (w : CmdWord) : (∃ i, decode w = .ok i) ↔ ∃ r ∈ rows, r.selects w = true := by
  constructor
  · rintro ⟨i, hdecode⟩
    obtain ⟨r, hr, hfields⟩ := exists_row_of_instr i
    rw [decode_eq_ok_iff.mp hdecode] at hfields
    exact ⟨r, hr, (selects_iff hr w).mpr hfields⟩
  · rintro ⟨r, hr, h⟩
    obtain ⟨i, hdecode, -⟩ := (selects_iff_decode hr w).mp h
    exact ⟨i, hdecode⟩

theorem errorWord_invalidOp : errorWord .invalidOp = 0x90000000 := by
  decide

/-- A word that decodes to no instruction is refused, and the refused command writes INVALID_OP to RESP. -/
theorem refused_of_not_exists_decode {w : CmdWord} (h : ¬ ∃ i, decode w = .ok i) :
    ∃ why, decode w = .error why ∧ ∀ s, illegalCommand why s = .next { s with resp := 0x90000000 } := by
  cases hdecode : decode w with
  | ok i => exact absurd ⟨i, hdecode⟩ h
  | error why =>
    refine ⟨why, rfl, fun s => ?_⟩
    rw [illegalCommand_eq, errorWord_invalidOp, writeResp]

/-- Settles O3: a row is selected by the words that decode with its operation code, which no other row has. -/
theorem rowsSelectWhatDecodes : Obligations.RowsSelectWhatDecodes := by
  simp only [Obligations.RowsSelectWhatDecodes, ← selects_eq_true_iff, ne_eq]
  refine ⟨fun r hr w => selects_iff_decode hr w, fun r hr q hq w h h' => ?_, fun w h => ?_⟩
  · exact row_eq_of_op_eq r hr q hq ((op_of_selects hr h).symm.trans (op_of_selects hq h'))
  · refine refused_of_not_exists_decode fun hdecode => ?_
    obtain ⟨r, hr, hselects⟩ := (exists_decode_iff_selects w).mp hdecode
    exact h r hr hselects

/-! ## Illegal words -/

/-- Every operation code but the fourteen of R66 has a row. -/
theorem not_mem_unassignedOps_iff : ∀ op : BitVec 5, op ∉ unassignedOps ↔ ∃ r ∈ rows, r.op = op := by
  decide

/-- The usage column of the table by operation code, in the words of R66. -/
theorem uses_iff_op : ∀ r ∈ rows,
    (.amt ∈ r.uses ↔ r.op = 0x07) ∧ (.key ∈ r.uses ↔ r.op ∈ [0x10, 0x12, 0x13, 0x14, 0x15])
    ∧ (.data ∈ r.uses ↔ r.op ≠ 0x10) ∧ (.aux ∈ r.uses ↔ r.op ∈ [0x08, 0x11]) := by
  decide

theorem slot_ne_zero_iff {t w : Nat} (s : Slot t w) : s ≠ .zero ↔ s.len ≠ 0 ∨ s.field ≠ 0 := by
  obtain ⟨len, field⟩ := s
  simp only [Slot.zero, ne_eq, Slot.mk.injEq]
  tauto

/-- R66 on the fields of a word. -/
theorem illegalWord_iff_fields (w : CmdWord) :
    IllegalWord w ↔ (Fields.ofWord w).op ∈ unassignedOps ∨ (Fields.ofWord w).reserved ≠ 0
      ∨ ((Fields.ofWord w).amt ≠ 0 ∧ (Fields.ofWord w).op ≠ 0x07)
      ∨ ((Fields.ofWord w).key ≠ .zero ∧ (Fields.ofWord w).op ∉ [0x10, 0x12, 0x13, 0x14, 0x15])
      ∨ ((Fields.ofWord w).data ≠ .zero ∧ (Fields.ofWord w).op = 0x10)
      ∨ ((Fields.ofWord w).aux ≠ .zero ∧ (Fields.ofWord w).op ∉ [0x08, 0x11]) := by
  simp only [slot_ne_zero_iff]
  exact Iff.rfl

theorem eq_ite_iff {α : Type} (used : Prop) [Decidable used] (x z : α) :
    (x = if used then x else z) ↔ (x ≠ z → used) := by
  split <;> simp_all

/-- Fields are as a row has them when the operation code is the row's and the row uses all that is not zero. -/
theorem eq_rowFields_iff (r : Row) (f : Fields) :
    f = rowFields r f ↔ f.op = r.op ∧ f.reserved = 0 ∧ (f.amt ≠ 0 → .amt ∈ r.uses) ∧ (f.key ≠ .zero → .key ∈ r.uses)
      ∧ (f.data ≠ .zero → .data ∈ r.uses) ∧ (f.aux ≠ .zero → .aux ∈ r.uses) := by
  obtain ⟨op, amt, key, data, aux, reserved⟩ := f
  simp only [rowFields, Fields.mk.injEq, eq_ite_iff]
  exact ⟨fun ⟨hop, hamt, hkey, hdata, haux, hres⟩ => ⟨hop, hres, hamt, hkey, hdata, haux⟩,
    fun ⟨hop, hres, hamt, hkey, hdata, haux⟩ => ⟨hop, hamt, hkey, hdata, haux, hres⟩⟩

/-- A word with a row's operation code is illegal exactly when it does not select that row. -/
theorem illegalWord_iff_of_op {r : Row} (hr : r ∈ rows) {w : CmdWord} (hop : (Fields.ofWord w).op = r.op) :
    IllegalWord w ↔ ¬ r.selects w = true := by
  obtain ⟨hamt, hkey, hdata, haux⟩ := uses_iff_op r hr
  have hassigned : r.op ∉ unassignedOps := (not_mem_unassignedOps_iff r.op).mpr ⟨r, hr, rfl⟩
  rw [illegalWord_iff_fields, selects_iff hr w, eq_rowFields_iff, hamt, hkey, hdata, haux, hop]
  simp only [hassigned, false_or, true_and, not_and_or, Classical.not_imp, ne_eq, not_not]

/-- A word is legal exactly when it selects a row: the row of its operation code, which must be assigned. -/
theorem not_illegalWord_iff_selects (w : CmdWord) : ¬ IllegalWord w ↔ ∃ r ∈ rows, r.selects w = true := by
  constructor
  · intro hlegal
    have hassigned : (Fields.ofWord w).op ∉ unassignedOps := fun h => hlegal ((illegalWord_iff_fields w).mpr (.inl h))
    obtain ⟨r, hr, hop⟩ := (not_mem_unassignedOps_iff _).mp hassigned
    exact ⟨r, hr, not_not.mp fun h => hlegal ((illegalWord_iff_of_op hr hop.symm).mpr h)⟩
  · rintro ⟨r, hr, hselects⟩ hillegal
    exact (illegalWord_iff_of_op hr (op_of_selects hr hselects)).mp hillegal hselects

/-- Settles O4: the legal words are those that select a row, and these are the words that decode. -/
theorem illegalWordsRaiseInvalidOp : Obligations.IllegalWordsRaiseInvalidOp := by
  have hlegal : ∀ w, ¬ IllegalWord w ↔ ∃ i, decode w = .ok i := fun w =>
    (not_illegalWord_iff_selects w).trans (exists_decode_iff_selects w).symm
  exact ⟨fun w h => refused_of_not_exists_decode fun hdecode => (hlegal w).mpr hdecode h, fun w => (hlegal w).mp⟩

/-! ## Slots -/

/-- A number shifted right by `n` is zero when it has no bit at or above `n`. -/
theorem shiftRight_eq_zero_iff_testBit (x n : Nat) : x >>> n = 0 ↔ ∀ j, n ≤ j → x.testBit j = false := by
  rw [Nat.shiftRight_eq_div_pow, Nat.div_eq_zero_iff_lt (by positivity)]
  exact ⟨fun h j hj => Nat.testBit_lt_two_pow (h.trans_le (Nat.pow_le_pow_right (by decide) hj)),
    Nat.lt_pow_two_of_testBit x⟩

/-- R65's check, bit by bit. -/
theorem slot_wf_iff {t w : Nat} (s : Slot t w) :
    s.wf = true ↔ s.len.toNat ≤ w ∧ ∀ j, s.len.toNat ≤ j → s.field.getLsbD j = false := by
  rw [Slot.wf, Bool.and_eq_true, decide_eq_true_eq, decide_eq_true_eq, shiftRight_eq_zero_iff_testBit]
  rfl

theorem slotVector_of_wf {t w : Nat} {s : Slot t w} (h : s.wf = true) : slotVector s = .ok (slotBits s) := by
  rw [slotVector, if_pos h]

theorem slotVector_of_not_wf {t w : Nat} {s : Slot t w} (h : s.wf = false) : slotVector s = .error .invalidInput := by
  rw [slotVector, h, if_neg Bool.false_ne_true]

/-- Position `p` of a slot's vector is the field bit as far below the tag. -/
theorem slotBits_position {t w : Nat} (s : Slot t w) {p : Nat} (h1 : 1 ≤ p) (hp : p ≤ s.len.toNat) :
    (slotBits s).position p = some (s.field.getLsbD (s.len.toNat - p)) := by
  obtain ⟨i, rfl⟩ : ∃ i, p = i + 1 := ⟨p - 1, by omega⟩
  rw [position_succ, slotBits, vecOf_getElem? _ _ _ (by omega), Nat.sub_sub, Nat.add_comm 1 i]
  rfl

/-- The slot in which a vector is placed: tag and field hold its length and its value whole, and it reads back. -/
theorem placeVector_eq_some {t w : Nat} (hw : w < 2 ^ t) {v : Bits} (hv : v.length ≤ w) :
    ∃ s : Slot t w, placeVector t w v = some s ∧ s.len.toNat = v.length ∧ s.wf = true ∧ slotBits s = v := by
  have hlen : (BitVec.ofNat t v.length).toNat = v.length := Nat.mod_eq_of_lt (hv.trans_lt hw)
  have hfield : (BitVec.ofNat w (val v)).toNat = val v :=
    Nat.mod_eq_of_lt ((val_lt v).trans_le (Nat.pow_le_pow_right (by decide) hv))
  refine ⟨⟨BitVec.ofNat t v.length, BitVec.ofNat w (val v)⟩, if_pos hv, hlen, ?_, ?_⟩
  · rw [Slot.wf, hlen, hfield, Nat.shiftRight_eq_div_pow, Nat.div_eq_of_lt (val_lt v), decide_eq_true hv]
    rfl
  · rw [slotBits, hlen, hfield, vecOf_val]

/-- A vector longer than the field is not placed. -/
theorem placeVector_eq_none {t w : Nat} {v : Bits} (hv : w < v.length) : placeVector t w v = none :=
  if_neg hv.not_ge

/-- Settles O6: a placed vector is the vector of a well-formed slot, and the positions of such a slot's vector are its field
bits. -/
theorem placedVectorReadsBack : Obligations.PlacedVectorReadsBack := by
  constructor
  · intro t w v hw hv
    obtain ⟨s, hplace, hlen, hwf, hbits⟩ := placeVector_eq_some hw hv
    refine ⟨s, hplace, hlen, fun p h1 hp => ?_, ?_, ?_⟩
    · rw [← hbits, slotBits_position s h1 (hlen ▸ hp), slotBits_length]
    · exact hlen ▸ ((slot_wf_iff s).mp hwf).2
    · rw [slotVector_of_wf hwf, hbits]
  · intro t w s hlen hbits
    refine ⟨slotBits s, slotVector_of_wf ((slot_wf_iff s).mpr ⟨hlen, hbits⟩), slotBits_length s, fun p h1 hp => ?_⟩
    exact slotBits_position s h1 (slotBits_length s ▸ hp)

/-- Settles O7: either fault breaks R65's check. -/
theorem illFormedSlotDenotesNoVector : Obligations.IllFormedSlotDenotesNoVector := by
  intro t w s
  constructor
  · intro hlen
    refine slotVector_of_not_wf (Bool.eq_false_iff.mpr fun hwf => ?_)
    exact hlen.not_ge ((slot_wf_iff s).mp hwf).1
  · intro j hj hbit
    refine slotVector_of_not_wf (Bool.eq_false_iff.mpr fun hwf => ?_)
    exact Bool.false_ne_true ((((slot_wf_iff s).mp hwf).2 j hj).symm.trans hbit)

/-- An operation on one slot fails with INVALID_INPUT when the slot is ill-formed. -/
theorem oneSlot_illFormed {t w : Nat} {s : Slot t w} {f : Bits → Result} (h : s.wf = false) :
    (slotVector s >>= f) = .error .invalidInput := by
  rw [slotVector_of_not_wf h, error_bind]

/-- An operation on two slots fails with INVALID_INPUT when either is ill-formed: both are read before its rule. -/
theorem twoSlots_illFormed {t w t' w' : Nat} {s : Slot t w} {s' : Slot t' w'} {f : Bits → Bits → Result}
    (h : (s.wf && s'.wf) = false) : (slotVector s >>= fun D => slotVector s' >>= f D) = .error .invalidInput := by
  cases hs : s.wf with
  | false => exact oneSlot_illFormed hs
  | true =>
    rw [hs, Bool.true_and] at h
    rw [slotVector_of_wf hs, ok_bind, oneSlot_illFormed h]

/-- The slots of an instruction are read before its rule, which has the tables. -/
theorem instrResult_of_not_wellFormed (T : Tables) {i : Instr} (h : i.WellFormed = false) :
    instrResult T i = .error .invalidInput := by
  cases i with
  | permP10 | permP8 | permIp | permIpinv | permEp | permP4 => exact oneSlot_illFormed h
  | rotl | split | swap | sbox0 | sbox1 | ksched => exact oneSlot_illFormed h
  | xor | round => exact twoSlots_illFormed h
  | enc | dec | enc3 | dec3 => exact twoSlots_illFormed h

theorem errorWord_invalidInput : errorWord .invalidInput = 0xA0000000 := by
  decide

/-- Settles O8: an ill-formed slot ends the command before its rule is applied. -/
theorem illFormedSlotRaisesInvalidInput : Obligations.IllFormedSlotRaisesInvalidInput := by
  refine ⟨fun t w s => slot_wf_iff s, fun i s h => ?_⟩
  rw [exec_eq_writeResp, instrResult_of_not_wellFormed s.tables h, resultWord, errorWord_invalidInput, writeResp]

/-! ## Completion -/

/-- Settles O12: an instruction writes the word of its result, and a step with an event to take writes the response to it. -/
theorem everyStepCompletes : Obligations.EveryStepCompletes := by
  refine ⟨fun s => ?_, fun i s => ⟨_, exec_eq_writeResp i s⟩⟩
  cases hpending : s.pending with
  | nil => exact ⟨s, step_of_idle hpending⟩
  | cons e rest => exact ⟨_, step_of_pending hpending⟩

/-! ## The ciphers undo each other

Both ciphers and all their parts map 8-bit blocks to 8-bit blocks, and each part is undone by a part. -/

/-- From every 8-bit block `f` answers an 8-bit block from which `g` answers the first one. -/
def UndoesBlocks (g f : Bits → Result) : Prop :=
  ∀ x, x.length = 8 → ∃ y, f x = .ok y ∧ y.length = 8 ∧ g y = .ok x

theorem UndoesBlocks.congr {f g f' g' : Bits → Result} (h : UndoesBlocks g f) (hf : ∀ x, x.length = 8 → f' x = f x)
    (hg : ∀ x, x.length = 8 → g' x = g x) : UndoesBlocks g' f' := by
  intro x hx
  obtain ⟨y, hy, hlen, hback⟩ := h x hx
  exact ⟨y, (hf x hx).trans hy, hlen, (hg y hlen).trans hback⟩

theorem permute_ipinv_undoes_ip {T : Tables} (hT : T.WF) :
    UndoesBlocks (fun y => permute y T.ipinv) (fun x => permute x T.ip) := by
  intro x hx
  obtain ⟨⟨y, hy, hback⟩, -⟩ := initialPermutationsAreInverse T x hT hx
  exact ⟨y, hy, (permute_length hy).trans hT.ip.1, hback⟩

theorem permute_ip_undoes_ipinv {T : Tables} (hT : T.WF) :
    UndoesBlocks (fun y => permute y T.ip) (fun x => permute x T.ipinv) := by
  intro x hx
  obtain ⟨-, y, hy, hback⟩ := initialPermutationsAreInverse T x hT hx
  exact ⟨y, hy, (permute_length hy).trans hT.ipinv.1, hback⟩

/-- A round keeps the right half, so a second round with the same subkey adds the same mask again. -/
theorem round_undoes_round {T : Tables} (hT : T.WF) {sk : Bits} (hk : sk.length = 8) :
    UndoesBlocks (fun y => round T y sk) (fun x => round T x sk) := by
  intro x hx
  obtain ⟨L, R, -, hL, hR, rfl⟩ := splitHalves_ok x hx
  obtain ⟨m, hm, hml, hround⟩ := round_append hT L R sk hL hR hk
  have hL' : (List.zipWith Bool.xor m L).length = 4 := by simp [hml, hL]
  obtain ⟨m', hm', -, hround'⟩ := round_append hT _ R sk hL' hR hk
  obtain rfl : m = m' := Except.ok.inj (hm.symm.trans hm')
  rw [zipWith_xor_cancel m L (hml.trans hL.symm)] at hround'
  exact ⟨_, hround, by simp [hL', hR], hround'⟩

theorem swapHalves_undoes_swapHalves : UndoesBlocks swapHalves swapHalves := by
  intro x hx
  obtain ⟨L, R, -, hL, hR, rfl⟩ := splitHalves_ok x hx
  exact ⟨R ++ L, swapHalves_append L R hL hR, by simp [hL, hR], swapHalves_append R L hR hL⟩

/-- The five steps are undone from the last to the first, which are the same five steps with the subkeys exchanged. -/
theorem twoRounds_undoes_twoRounds {T : Tables} (hT : T.WF) {k1 k2 : Bits} (h1 : k1.length = 8) (h2 : k2.length = 8) :
    UndoesBlocks (twoRounds T k2 k1) (twoRounds T k1 k2) := by
  intro x hx
  obtain ⟨s0, hs0, hlen, hback0⟩ := permute_ipinv_undoes_ip hT x hx
  obtain ⟨s1, hs1, hlen, hback1⟩ := round_undoes_round hT h1 s0 hlen
  obtain ⟨s2, hs2, hlen, hback2⟩ := swapHalves_undoes_swapHalves s1 hlen
  obtain ⟨s3, hs3, hlen, hback3⟩ := round_undoes_round hT h2 s2 hlen
  obtain ⟨y, hy, hlen, hback4⟩ := permute_ip_undoes_ipinv hT s3 hlen
  exact ⟨y, by simp [twoRounds, hs0, hs1, hs2, hs3, hy], hlen,
    by simp [twoRounds, hback4, hback3, hback2, hback1, hback0]⟩

/-- With right lengths the single cipher is the two rounds under its key's subkeys. -/
theorem encrypt_eq_twoRounds {T : Tables} {k x SK1 SK2 : Bits} (hk : k.length = 10) (hx : x.length = 8)
    (hkeys : keySchedule T k = .ok (SK1, SK2)) : encrypt T k x = twoRounds T SK1 SK2 x := by
  simp [encrypt, Config.keyBits, Config.blockBits, hk, hx, hkeys]

theorem decrypt_eq_twoRounds {T : Tables} {k x SK1 SK2 : Bits} (hk : k.length = 10) (hx : x.length = 8)
    (hkeys : keySchedule T k = .ok (SK1, SK2)) : decrypt T k x = twoRounds T SK2 SK1 x := by
  simp [decrypt, Config.keyBits, Config.blockBits, hk, hx, hkeys]

theorem decrypt_undoes_encrypt {T : Tables} (hT : T.WF) {k : Bits} (hk : k.length = 10) :
    UndoesBlocks (decrypt T k) (encrypt T k) := by
  obtain ⟨SK1, SK2, hkeys, h1, h2⟩ := keySchedule_ok hT k hk
  exact (twoRounds_undoes_twoRounds hT h1 h2).congr (fun _ hx => encrypt_eq_twoRounds hk hx hkeys)
    (fun _ hx => decrypt_eq_twoRounds hk hx hkeys)

theorem encrypt_undoes_decrypt {T : Tables} (hT : T.WF) {k : Bits} (hk : k.length = 10) :
    UndoesBlocks (encrypt T k) (decrypt T k) := by
  obtain ⟨SK1, SK2, hkeys, h1, h2⟩ := keySchedule_ok hT k hk
  exact (twoRounds_undoes_twoRounds hT h2 h1).congr (fun _ hx => decrypt_eq_twoRounds hk hx hkeys)
    (fun _ hx => encrypt_eq_twoRounds hk hx hkeys)

/-- With right lengths the triple cipher is its three inner calls. -/
theorem encrypt3_eq {T : Tables} {MK1 MK2 x : Bits} (h1 : MK1.length = 10) (h2 : MK2.length = 10) (hx : x.length = 8) :
    encrypt3 T MK1 MK2 x = encrypt T MK1 x >>= decrypt T MK2 >>= encrypt T MK1 := by
  simp [encrypt3, Config.keyBits, Config.blockBits, h1, h2, hx]

theorem decrypt3_eq {T : Tables} {MK1 MK2 x : Bits} (h1 : MK1.length = 10) (h2 : MK2.length = 10) (hx : x.length = 8) :
    decrypt3 T (MK1 ++ MK2) x = decrypt T MK1 x >>= encrypt T MK2 >>= decrypt T MK1 := by
  have htake : (MK1 ++ MK2).take 10 = MK1 := h1 ▸ List.take_left
  have hdrop : (MK1 ++ MK2).drop 10 = MK2 := h1 ▸ List.drop_left
  simp [decrypt3, Config.keyBits, Config.combinedKeyBits, Config.blockBits, h1, h2, hx, htake, hdrop]

/-- Three inner calls, the first and the last the same, are undone by three that undo them. -/
theorem UndoesBlocks.between {f g f' g' : Bits → Result} (h : UndoesBlocks g f) (h' : UndoesBlocks g' f') :
    UndoesBlocks (fun y => g y >>= g' >>= g) (fun x => f x >>= f' >>= f) := by
  intro x hx
  obtain ⟨a, ha, hlen, hback1⟩ := h x hx
  obtain ⟨b, hb, hlen, hback2⟩ := h' a hlen
  obtain ⟨c, hc, hlen, hback3⟩ := h b hlen
  exact ⟨c, by simp [ha, hb, hc], hlen, by simp [hback3, hback2, hback1]⟩

theorem decrypt3_undoes_encrypt3 {T : Tables} (hT : T.WF) {MK1 MK2 : Bits} (h1 : MK1.length = 10)
    (h2 : MK2.length = 10) : UndoesBlocks (decrypt3 T (MK1 ++ MK2)) (encrypt3 T MK1 MK2) :=
  ((decrypt_undoes_encrypt hT h1).between (encrypt_undoes_decrypt hT h2)).congr (fun _ hx => encrypt3_eq h1 h2 hx)
    (fun _ hx => decrypt3_eq h1 h2 hx)

theorem encrypt3_undoes_decrypt3 {T : Tables} (hT : T.WF) {MK1 MK2 : Bits} (h1 : MK1.length = 10)
    (h2 : MK2.length = 10) : UndoesBlocks (encrypt3 T MK1 MK2) (decrypt3 T (MK1 ++ MK2)) :=
  ((encrypt_undoes_decrypt hT h1).between (decrypt_undoes_encrypt hT h2)).congr (fun _ hx => decrypt3_eq h1 h2 hx)
    (fun _ hx => encrypt3_eq h1 h2 hx)

/-! ## The cipher commands undo each other -/

/-- The vector shown in RESP is the one packed there. -/
theorem resultOf_okWord {r : Bits} (h : r.length ≤ 16) : resultOf (okWord r) = r := by
  rw [resultOf, rlenOf_okWord_toNat h, resOf_okWord_toNat h, vecOf_val]

/-- Rules that undo each other on blocks make commands that do: RESP shows the first command's block, which fits DATA. -/
theorem cipherUndoes_of_rules {mk undo : KeySlot → DataSlot → Instr} {keyLen : Nat}
    {rule undoRule : Tables → Bits → Bits → Result}
    (hmk : ∀ T key data, instrResult T (mk key data) = slotVector key >>= fun K => slotVector data >>= rule T K)
    (hundo : ∀ T key data, instrResult T (undo key data) = slotVector key >>= fun K => slotVector data >>= undoRule T K)
    (hrules : ∀ (T : Tables) (K : Bits), T.WF → K.length = keyLen → UndoesBlocks (undoRule T K) (rule T K)) :
    CipherUndoes mk undo keyLen := by
  intro s key data K D hK hD hKlen hDlen
  obtain ⟨c, hc, hclen, hback⟩ := hrules s.tables K s.built.wf hKlen D hDlen
  obtain ⟨data', hplace, -, hwf, hbits⟩ := placeVector_eq_some (t := 4) (w := 10) (by decide) (v := c) (by omega)
  have hfirst : instrResult s.tables (mk key data) = .ok c := by simp [hmk, hK, hD, hc]
  have hsecond : instrResult s.tables (undo key data') = .ok D := by
    simp [hundo, hK, slotVector_of_wf hwf, hbits, hback]
  refine ⟨writeResp (okWord c) s, data', ?_, ?_, ?_⟩
  · rw [exec_eq_writeResp, hfirst, resultWord]
  · rw [writeResp_resp, resultOf_okWord (by omega), hplace]
  · rw [exec_eq_writeResp, State.tables, writeResp_built, hsecond]
    rfl

/-- Two checks that are met leave what comes after them. -/
theorem afterTwoChecks_eq {c d : Prop} [Decidable c] [Decidable d] {e e' : Err} {x : Result} (hc : c) (hd : d) :
    (require c e >>= fun _ => require d e' >>= fun _ => x) = x := by
  simp [hc, hd]

/-- Each rule repeats its function's checks, so on right lengths it is that function. -/
theorem ruleEnc_ruleDec_undo_each_other {T : Tables} (hT : T.WF) {K : Bits} (hK : K.length = 10) :
    UndoesBlocks (ruleDec T K) (ruleEnc T K) ∧ UndoesBlocks (ruleEnc T K) (ruleDec T K) := by
  have henc : ∀ x : Bits, x.length = 8 → ruleEnc T K x = encrypt T K x := fun x hx => afterTwoChecks_eq hK hx
  have hdec : ∀ x : Bits, x.length = 8 → ruleDec T K x = decrypt T K x := fun x hx => afterTwoChecks_eq hK hx
  exact ⟨(decrypt_undoes_encrypt hT hK).congr henc hdec, (encrypt_undoes_decrypt hT hK).congr hdec henc⟩

theorem ruleEnc3_ruleDec3_undo_each_other {T : Tables} (hT : T.WF) {K : Bits} (hK : K.length = 20) :
    UndoesBlocks (ruleDec3 T K) (ruleEnc3 T K) ∧ UndoesBlocks (ruleEnc3 T K) (ruleDec3 T K) := by
  have h1 : (K.take 10).length = 10 := by simp [hK]
  have h2 : (K.drop 10).length = 10 := by simp [hK]
  have henc : ∀ x : Bits, x.length = 8 → ruleEnc3 T K x = encrypt3 T (K.take 10) (K.drop 10) x :=
    fun x hx => afterTwoChecks_eq hK hx
  have hdec : ∀ x : Bits, x.length = 8 → ruleDec3 T K x = decrypt3 T (K.take 10 ++ K.drop 10) x := by
    intro x hx
    rw [List.take_append_drop]
    exact afterTwoChecks_eq hK hx
  exact ⟨(decrypt3_undoes_encrypt3 hT h1 h2).congr henc hdec, (encrypt3_undoes_decrypt3 hT h1 h2).congr hdec henc⟩

/-- Settles O56: the rules of each pair undo each other under every right key. -/
theorem cipherCommandsUndoEachOther : Obligations.CipherCommandsUndoEachOther := by
  refine ⟨?_, ?_, ?_, ?_⟩ <;> refine cipherUndoes_of_rules (fun _ _ _ => rfl) (fun _ _ _ => rfl) fun T K hT hK => ?_
  · exact (ruleEnc_ruleDec_undo_each_other hT hK).1
  · exact (ruleEnc_ruleDec_undo_each_other hT hK).2
  · exact (ruleEnc3_ruleDec3_undo_each_other hT hK).1
  · exact (ruleEnc3_ruleDec3_undo_each_other hT hK).2

/-! ## The assembler -/

/-- Every list of characters but the empty one and `e` is read bit by bit. -/
theorem readLiteral_eq_mapM {cs : List Char} (hnil : cs ≠ []) (he : cs ≠ ['e']) :
    readLiteral cs = cs.mapM (fun c => if c = '0' then some false else if c = '1' then some true else none) := by
  unfold readLiteral
  split
  · exact absurd rfl hnil
  · exact absurd rfl he
  · rfl

theorem writeLiteral_cons (b : Bool) (v : Bits) :
    writeLiteral (b :: v) = (b :: v).map (fun b => if b then '1' else '0') := rfl

theorem readLiteral_writeLiteral (v : Bits) : readLiteral (writeLiteral v) = some v := by
  cases v with
  | nil => rfl
  | cons b v =>
    have hnotE : ∀ b : Bool, (if b then '1' else '0') ≠ 'e' := by decide
    have hbit : ((fun c => if c = '0' then some false else if c = '1' then some true else none)
        ∘ fun b : Bool => if b then '1' else '0') = pure := by
      funext b
      cases b <;> rfl
    rw [writeLiteral_cons, readLiteral_eq_mapM (by simp) (by simp [hnotE]), List.mapM_map, hbit]
    exact (List.mapM_pure (f := id)).trans (by simp)

/-- A literal goes into a slot as its vector does. -/
theorem readSlot_writeLiteral (t w : Nat) (v : Bits) : readSlot t w (writeLiteral v) = placeVector t w v := by
  rw [readSlot, readLiteral_writeLiteral, Option.bind_some]

/-- The literal of a vector that fits the slot assembles to a slot that carries the vector. -/
theorem readSlot_writeLiteral_of_le {t w : Nat} (hw : w < 2 ^ t) {v : Bits} (hv : v.length ≤ w) :
    ∃ s, readSlot t w (writeLiteral v) = some s ∧ slotVector s = .ok v := by
  obtain ⟨s, hplace, -, hwf, hbits⟩ := placeVector_eq_some hw hv
  exact ⟨s, (readSlot_writeLiteral t w v).trans hplace, by rw [slotVector_of_wf hwf, hbits]⟩

/-- The literal of a longer vector does not assemble. -/
theorem readSlot_writeLiteral_of_lt (t : Nat) {w : Nat} {v : Bits} (hv : w < v.length) :
    readSlot t w (writeLiteral v) = none :=
  (readSlot_writeLiteral t w v).trans (placeVector_eq_none hv)

/-- Settles O57: a literal reads back as its vector, which a slot carries exactly when it fits the field. -/
theorem literalsReadBack : Obligations.LiteralsReadBack :=
  ⟨readLiteral_writeLiteral, fun _ => readSlot_writeLiteral_of_lt 5, fun _ => readSlot_writeLiteral_of_lt 4,
    fun _ => readSlot_writeLiteral_of_le (by decide), fun _ => readSlot_writeLiteral_of_le (by decide)⟩

/-- No mnemonic other than ENC3 and DEC3 takes three operands. -/
theorem assembleOperands_three_eq_none {mnemonic : String} (henc3 : mnemonic ≠ "ENC3") (hdec3 : mnemonic ≠ "DEC3")
    (a b c : List Char) : assembleOperands mnemonic [a, b, c] = none := by
  unfold assembleOperands
  split
  case h_17 => exact absurd rfl henc3
  case h_18 => exact absurd rfl hdec3
  all_goals rfl

theorem assembleOperands_enc3 (ops : List (List Char)) : assembleOperands "ENC3" ops = asmTriple .enc3 ops := rfl

theorem assembleOperands_dec3 (ops : List (List Char)) : assembleOperands "DEC3" ops = asmTriple .dec3 ops := rfl

theorem asmTriple_three (mk : KeySlot → DataSlot → Instr) (mk1 mk2 d : List Char) :
    asmTriple mk [mk1, mk2, d]
      = if mk1.length = 10 ∧ mk2.length = 10 then asmTriple mk [mk1 ++ mk2, d] else none := rfl

/-- Settles O58: only the triple cipher's mnemonics take three operands, and they test the two keys before joining them. -/
theorem pseudoInstructionsJoinKeys : Obligations.PseudoInstructionsJoinKeys := by
  refine ⟨fun mk1 mk2 d h1 h2 => ?_, fun mk1 mk2 d h => ?_, fun m mk1 mk2 d henc3 hdec3 =>
    assembleOperands_three_eq_none henc3 hdec3 mk1 mk2 d⟩
  · simp only [assembleOperands_enc3, assembleOperands_dec3, asmTriple_three, h1, h2, and_self, if_true]
  · have hlen : ¬ (mk1.length = 10 ∧ mk2.length = 10) := by omega
    simp only [assembleOperands_enc3, assembleOperands_dec3, asmTriple_three, hlen, if_false, and_self]

/-- Settles O59, by running the assembler on the four lines. -/
theorem printedLinesAssemble : Obligations.PrintedLinesAssemble :=
  ⟨by decide, by decide, by decide, by decide⟩

end Sys2Proof.Proofs

namespace Sys2Proof.Proofs

open Sys2Proof.Machine Sys2Proof.Safety

/-! ## The functions of R100 to R105 -/

/-- Settles O5, by decoding the seven words. -/
theorem printedWordsDecode : Obligations.PrintedWordsDecode :=
  ⟨rfl, rfl, rfl, rfl, rfl, rfl, rfl⟩

theorem permute_invalidTable {x : Bits} {t : IndexTable} (h : ∃ e ∈ t, e < 1 ∨ x.length < e) :
    permute x t = .error .invalidTable := by
  rw [permute, gather_none x t h]

/-- Settles O25: every entry names a position, or some entry names none. -/
theorem permuteGathersPositions : Obligations.PermuteGathersPositions := by
  intro x t
  refine ⟨fun h => ?_, permute_invalidTable⟩
  obtain ⟨y, hy, hlen, hpos⟩ := permute_ok x t h
  exact ⟨y, hy, hlen, fun i _ => hpos i⟩

/-- The rotation of R101 is the library's rotation of lists. -/
theorem rotateLeft_eq_rotate (x : Bits) (k : Nat) : rotateLeft x k = x.rotate k :=
  List.rotate_eq_drop_append_take_mod.symm

/-- The formula of R101. -/
theorem rotateLeft_position (x : Bits) (k : Nat) {p : Nat} (h1 : 1 ≤ p) (hp : p ≤ x.length) :
    (rotateLeft x k).position p = x.position ((p - 1 + k) % x.length + 1) := by
  obtain ⟨i, rfl⟩ := Nat.exists_eq_add_of_le' h1
  rw [rotateLeft_eq_rotate, position_succ, position_succ, List.getElem?_rotate hp, Nat.add_sub_cancel]

/-- Settles O26; the length of the empty vector's rotation is 0. -/
theorem rotateLeftFollowsFormula : Obligations.RotateLeftFollowsFormula :=
  ⟨fun x k _ => rotateLeft_position x k, rotateLeft_length,
    fun k => List.length_eq_zero_iff.mp (rotateLeft_length [] k)⟩

/-- Settles O27: all four are laws of list rotation. -/
theorem rotationsAddUp : Obligations.RotationsAddUp := by
  simp only [Obligations.RotationsAddUp, rotateLeft_eq_rotate]
  exact ⟨fun x => ⟨x.rotate_zero, x.rotate_length⟩, fun x k => (x.rotate_mod k).symm, fun x => x.rotate_rotate⟩

theorem xor_eq_zipWith {a b : Bits} (h : a.length = b.length) : Machine.xor a b = .ok (List.zipWith Bool.xor a b) :=
  if_pos h

theorem xor_lengthMismatch {a b : Bits} (h : a.length ≠ b.length) : Machine.xor a b = .error .lengthMismatch :=
  if_neg h

theorem zipWith_xor_position (a b : Bits) (p : Nat) :
    Bits.position (List.zipWith Bool.xor a b) p
      = (a.position p).bind fun u => (b.position p).map fun v => Bool.xor u v := by
  cases p with
  | zero => rfl
  | succ i => simp only [position_succ, List.getElem?_zipWith', Option.bind_map, Function.comp_def]

/-- What `xor` answers on equal lengths, position by position. -/
theorem xor_positions {a b : Bits} (h : a.length = b.length) :
    ∃ y : Bits, Machine.xor a b = .ok y ∧ y.length = a.length
      ∧ ∀ p, y.position p = (a.position p).bind fun u => (b.position p).map fun v => Bool.xor u v :=
  ⟨_, xor_eq_zipWith h, xor_length (xor_eq_zipWith h), zipWith_xor_position a b⟩

/-- Settles O28, one clause for each branch of `xor`. -/
theorem xorIsElementwise : Obligations.XorIsElementwise :=
  ⟨fun _ _ => xor_positions, fun _ _ => xor_lengthMismatch⟩

theorem xor_comm (a b : Bits) : Machine.xor a b = Machine.xor b a := by
  by_cases h : a.length = b.length
  · rw [xor_eq_zipWith h, xor_eq_zipWith h.symm, List.zipWith_comm_of_comm Bool.xor_comm]
  · rw [xor_lengthMismatch h, xor_lengthMismatch (Ne.symm h)]

/-- Adding a vector that was added before takes it away again. -/
theorem xor_xor_cancel {a b : Bits} (h : a.length = b.length) :
    ∃ y : Bits, Machine.xor a b = .ok y ∧ Machine.xor y b = .ok a := by
  refine ⟨List.zipWith Bool.xor b a, xor_comm a b ▸ xor_eq_zipWith h.symm, ?_⟩
  rw [xor_comm, xor_eq_zipWith (xor_length (xor_eq_zipWith h.symm)).symm, zipWith_xor_cancel b a h.symm]

theorem xor_self (a : Bits) : Machine.xor a a = .ok (List.replicate a.length false) := by
  rw [xor_eq_zipWith rfl, List.zipWith_self]
  simp

/-- Settles O29: the laws of the exclusive or of bits, position by position. -/
theorem xorCommutesAndCancels : Obligations.XorCommutesAndCancels :=
  ⟨xor_comm, fun _ _ => xor_xor_cancel, xor_self⟩

theorem splitHalves_malformed {x : Bits} (h : x.length ≠ 8) : splitHalves x = .error .malformedInput :=
  if_neg h

theorem swapHalves_malformed {x : Bits} (h : x.length ≠ 8) : swapHalves x = .error .malformedInput :=
  if_neg h

/-- Settles O30: eight bits are two halves of four. -/
theorem halvesSplitAndSwap : Obligations.HalvesSplitAndSwap :=
  ⟨fun a b c d e f g h =>
      ⟨splitHalves_append [a, b, c, d] [e, f, g, h] rfl rfl, swapHalves_append [a, b, c, d] [e, f, g, h] rfl rfl⟩,
    fun _ hx => ⟨splitHalves_malformed hx, swapHalves_malformed hx⟩⟩

/-- Settles O31: swapping is its own inverse on blocks. -/
theorem swapTwiceRestoresVector : Obligations.SwapTwiceRestoresVector := by
  intro x hx
  obtain ⟨y, hy, -, hback⟩ := swapHalves_undoes_swapHalves x hx
  exact ⟨y, hy, hback⟩

/-- The two bits of an S-box entry. -/
theorem vecOf_two : ∀ v : Fin 4, vecOf 2 v.val = [decide (2 ≤ v.val), decide (v.val % 2 = 1)] := by
  decide

/-- The row comes from the outer bits and the column from the inner bits (R105). -/
theorem sBoxLookup_entry (S : SBox) {b1 b2 b3 b4 : Bool} {row col : Fin 4} (hrow : row.val = 2 * b1.toNat + b4.toNat)
    (hcol : col.val = 2 * b2.toNat + b3.toNat) :
    sBoxLookup [b1, b2, b3, b4] S
      = .ok [decide (2 ≤ ((S.get row).get col).val), decide (((S.get row).get col).val % 2 = 1)] := by
  obtain rfl : row = pairNumber b1 b4 := Fin.ext hrow
  obtain rfl : col = pairNumber b2 b3 := Fin.ext hcol
  rw [sBoxLookup, vecOf_two]

/-- Settles O32: the row and the column are the numbers of the outer and of the inner pair. -/
theorem sBoxLooksUpRowAndColumn : Obligations.SBoxLooksUpRowAndColumn :=
  ⟨fun S _ _ _ _ _ _ => sBoxLookup_entry S, fun S b => sBoxLookup_malformed b S⟩

/-! ## Vectors of equal bits -/

/-- Whatever positions a table names, they hold the same bit. -/
theorem permute_replicate {t : IndexTable} {len top : Nat} (ht : t.Fits len top) (b : Bool) :
    permute (List.replicate top b) t = .ok (List.replicate len b) := by
  obtain ⟨y, hy, hlen, hpos⟩ := permute_ok (List.replicate top b) t (by simpa using ht.2)
  have hbit : ∀ a ∈ y, a = b := by
    intro a ha
    obtain ⟨i, hi⟩ := List.mem_iff_getElem?.mp ha
    obtain ⟨e, he, hbe⟩ := Option.bind_eq_some_iff.mp (hpos i ▸ hi)
    obtain ⟨n, rfl⟩ := Nat.exists_eq_add_of_le' (ht.2 e (List.mem_of_getElem? he)).1
    exact List.eq_of_mem_replicate (List.mem_of_getElem? hbe)
  rw [hy, List.eq_replicate_of_mem hbit, hlen, ht.1]

theorem rotateLeft_replicate (n k : Nat) (b : Bool) : rotateLeft (List.replicate n b) k = List.replicate n b := by
  rw [rotateLeft_eq_rotate, List.rotate_replicate]

theorem rotateKeyHalves_replicate (k : Nat) (b : Bool) :
    rotateKeyHalves (List.replicate 10 b) k = List.replicate 10 b := by
  rw [rotateKeyHalves, Config.keyHalfBits, List.take_replicate, List.drop_replicate, rotateLeft_replicate,
    rotateLeft_replicate, List.replicate_append_replicate]
  rfl

/-- Settles O34: no permutation and no rotation of the schedule changes a vector of equal bits. -/
theorem constantKeyGivesConstantSubkeys : Obligations.ConstantKeyGivesConstantSubkeys := by
  intro T b hT
  simp only [keySchedule, Config.keyBits, List.length_replicate, decide_true, require_true, ok_bind,
    permute_replicate hT.p10, rotateKeyHalves_replicate, permute_replicate hT.p8]

/-- Settles O36: both rounds add the same mask. -/
theorem roundTwiceRestoresState : Obligations.RoundTwiceRestoresState :=
  fun _ st _ hT hst hsk => round_undoes_round hT hsk st hst

/-! ## The largest entry of a table -/

theorem foldl_max_le_iff (t : List Nat) (a n : Nat) : t.foldl max a ≤ n ↔ a ≤ n ∧ ∀ e ∈ t, e ≤ n := by
  induction t generalizing a with
  | nil => simp
  | cons e t ih => rw [List.foldl_cons, ih, max_le_iff, List.forall_mem_cons, and_assoc]

theorem tableTop_le_iff (t : IndexTable) (n : Nat) : tableTop t ≤ n ↔ ∀ e ∈ t, e ≤ n := by
  rw [tableTop, foldl_max_le_iff, and_iff_right (Nat.zero_le n)]

/-- A table that another undoes names every position, so its largest entry is the last position. -/
theorem tableTop_of_undoes {u t : IndexTable} {n : Nat} (ht : t.Fits n n) (hn : 0 < n) (hut : Undoes u t n) :
    tableTop t = n := by
  refine le_antisymm ((tableTop_le_iff t n).mpr fun e he => (ht.2 e he).2) ?_
  obtain ⟨j, -, hj⟩ := Option.bind_eq_some_iff.mp (hut (n - 1) (by omega))
  have hmem : n ∈ t := by
    have := List.mem_of_getElem? hj
    rwa [Nat.sub_add_cancel hn] at this
  exact (tableTop_le_iff t _).mp le_rfl n hmem

/-! ## The operations of R110 to R121

A command that reads its slots ends with its rule's answer. The lemmas of this section speak of any operation `mk` on DATA,
given by its rule. -/

theorem exec_of_instrResult {i : Instr} {s : State} {x : Result} (h : instrResult s.tables i = x) :
    exec i s = .next { s with resp := resultWord x } := by
  rw [exec_eq_writeResp, h]
  rfl

theorem errorWord_malformedInput : errorWord .malformedInput = 0xB0000000 := by
  decide

theorem errorWord_lengthMismatch : errorWord .lengthMismatch = 0xC0000000 := by
  decide

theorem errorWord_invalidTable : errorWord .invalidTable = 0xD0000000 := by
  decide

/-- `mk` is the operation on DATA whose result is `rule`'s on the operand (`30_encoding.md` R61 step 4). -/
def HasRule (mk : DataSlot → Instr) (rule : Tables → Bits → Result) : Prop :=
  ∀ (T : Tables) (data : DataSlot), instrResult T (mk data) = slotVector data >>= rule T

theorem HasRule.exec_eq {mk : DataSlot → Instr} {rule : Tables → Bits → Result} (hmk : HasRule mk rule) {s : State}
    {data : DataSlot} {D : Bits} {x : Result} (hD : slotVector data = .ok D) (hx : rule s.tables D = x) :
    exec (mk data) s = .next { s with resp := resultWord x } := by
  refine exec_of_instrResult ?_
  rw [hmk, hD, ok_bind, hx]

theorem HasRule.permCompletes {mk : DataSlot → Instr} {tab : Tables → IndexTable} {len top : Nat}
    (hmk : HasRule mk fun T D => permute D (tab T)) (htab : ∀ T : Tables, T.WF → (tab T).Fits len top) :
    PermCompletes mk tab len := by
  intro s data D hD htop
  have hfits := htab s.tables s.built.wf
  have hle := (tableTop_le_iff _ _).mp htop
  obtain ⟨r, hr, hlen, hpos⟩ := permute_ok D (tab s.tables) fun e he => ⟨(hfits.2 e he).1, hle e he⟩
  exact ⟨r, hlen.trans hfits.1, fun i _ => hpos i, hmk.exec_eq hD hr⟩

theorem HasRule.permRaises {mk : DataSlot → Instr} {tab : Tables → IndexTable}
    (hmk : HasRule mk fun T D => permute D (tab T)) : PermRaises mk tab := by
  intro s data D hD htop
  have hlong : ∃ e ∈ tab s.tables, e < 1 ∨ D.length < e := by
    by_contra! hshort
    exact htop.not_ge ((tableTop_le_iff _ _).mpr fun e he => (hshort e he).2)
  rw [hmk.exec_eq hD (permute_invalidTable hlong), resultWord, errorWord_invalidTable]

theorem HasRule.dataLengthRaises {mk : DataSlot → Instr} {rule : Tables → Bits → Result} (hmk : HasRule mk rule)
    {len : Nat} (hrule : ∀ (T : Tables) (D : Bits), D.length ≠ len → rule T D = .error .malformedInput) :
    DataLengthRaises mk len := by
  intro s data D hD hlen
  rw [hmk.exec_eq hD (hrule s.tables D hlen), resultWord, errorWord_malformedInput]

theorem HasRule.sboxCompletes {mk : DataSlot → Instr} {box : Tables → SBox}
    (hmk : HasRule mk fun T D => sBoxLookup D (box T)) : SboxCompletes mk box := by
  intro s data b1 b2 b3 b4 row col v hD hrow hcol hv
  rw [hmk.exec_eq hD (sBoxLookup_entry (box s.tables) hrow hcol), resultWord, hv]

theorem permP10_hasRule : HasRule .permP10 fun T D => permute D T.p10 := fun _ _ => rfl
theorem permP8_hasRule : HasRule .permP8 fun T D => permute D T.p8 := fun _ _ => rfl
theorem permIp_hasRule : HasRule .permIp fun T D => permute D T.ip := fun _ _ => rfl
theorem permIpinv_hasRule : HasRule .permIpinv fun T D => permute D T.ipinv := fun _ _ => rfl
theorem permEp_hasRule : HasRule .permEp fun T D => permute D T.ep := fun _ _ => rfl
theorem permP4_hasRule : HasRule .permP4 fun T D => permute D T.p4 := fun _ _ => rfl
theorem rotl_hasRule (amt : BitVec 3) : HasRule (.rotl amt) fun _ => ruleRotl (amount amt) := fun _ _ => rfl
theorem split_hasRule : HasRule .split fun _ => ruleSplit := fun _ _ => rfl
theorem swap_hasRule : HasRule .swap fun _ => swapHalves := fun _ _ => rfl
theorem sbox0_hasRule : HasRule .sbox0 fun T D => sBoxLookup D T.s0 := fun _ _ => rfl
theorem sbox1_hasRule : HasRule .sbox1 fun T D => sBoxLookup D T.s1 := fun _ _ => rfl

/-- Settles O45: WF fits each of the six tables, so an operand that reaches the largest entry has every position named. -/
theorem permutationsComplete : Obligations.PermutationsComplete :=
  ⟨permP10_hasRule.permCompletes fun _ hT => hT.p10, permP8_hasRule.permCompletes fun _ hT => hT.p8,
    permIp_hasRule.permCompletes fun _ hT => hT.ip, permIpinv_hasRule.permCompletes fun _ hT => hT.ipinv,
    permEp_hasRule.permCompletes fun _ hT => hT.ep, permP4_hasRule.permCompletes fun _ hT => hT.p4⟩

/-- Settles O46: a short operand lacks the position of the largest entry; IP and IPINV undo each other, so both name
position 8. -/
theorem shortOperandRaisesInvalidTable : Obligations.ShortOperandRaisesInvalidTable := by
  refine ⟨⟨permP10_hasRule.permRaises, permP8_hasRule.permRaises, permIp_hasRule.permRaises,
    permIpinv_hasRule.permRaises, permEp_hasRule.permRaises, permP4_hasRule.permRaises⟩, fun T hT => ?_⟩
  have hinv : Undoes T.ipinv T.ip 8 := hT.ipinvInverse
  exact ⟨tableTop_of_undoes hT.ip (by decide) hinv,
    tableTop_of_undoes hT.ipinv (by decide) (hinv.symm hT.ip hT.ipinv hT.ipBijective)⟩

/-- Settles O47: ROTL's rule is `rotateLeft`, which never fails. -/
theorem rotateLeftCompletes : Obligations.RotateLeftCompletes :=
  fun _ amt _ D hD =>
    ⟨rotateLeft D amt.toNat, rotateLeft_length D _, fun _ => rotateLeft_position D _, (rotl_hasRule amt).exec_eq hD rfl⟩

/-- Settles O48: the two operands are read, and then `xor` answers. -/
theorem xorCompletesOnEqualLengths : Obligations.XorCompletesOnEqualLengths := by
  intro s data aux D A hD hA
  have hresult : instrResult s.tables (.xor data aux) = Machine.xor D A := by
    simp [instrResult, hD, hA, ruleXor]
  constructor
  · intro hlen
    obtain ⟨r, hr, hrlen, hpos⟩ := xor_positions hlen
    exact ⟨r, hrlen, hpos, exec_of_instrResult (hresult.trans hr)⟩
  · intro hlen
    rw [exec_of_instrResult (hresult.trans (xor_lengthMismatch hlen)), resultWord, errorWord_lengthMismatch]

/-- SPLIT puts the two halves side by side again. -/
theorem ruleSplit_ok {D : Bits} (h : D.length = 8) : ruleSplit D = .ok D := by
  obtain ⟨L, R, hsplit, -, -, rfl⟩ := splitHalves_ok D h
  rw [ruleSplit, hsplit, ok_bind]

theorem ruleSplit_malformed {D : Bits} (h : D.length ≠ 8) : ruleSplit D = .error .malformedInput := by
  rw [ruleSplit, splitHalves_malformed h, error_bind]

theorem swapHalves_eq_drop_append_take {D : Bits} (h : D.length = 8) :
    swapHalves D = .ok (D.drop 4 ++ D.take 4) :=
  if_pos h

/-- Settles O49: both rules cut eight bits into halves and refuse every other length. -/
theorem splitAndSwapComplete : Obligations.SplitAndSwapComplete :=
  ⟨fun _ _ _ hD hlen => ⟨split_hasRule.exec_eq hD (ruleSplit_ok hlen),
      swap_hasRule.exec_eq hD (swapHalves_eq_drop_append_take hlen)⟩,
    split_hasRule.dataLengthRaises fun _ _ => ruleSplit_malformed,
    swap_hasRule.dataLengthRaises fun _ _ => swapHalves_malformed⟩

/-- Settles O50: each operation looks up in its own table. -/
theorem sboxesComplete : Obligations.SboxesComplete :=
  ⟨sbox0_hasRule.sboxCompletes, sbox1_hasRule.sboxCompletes,
    sbox0_hasRule.dataLengthRaises fun T D => sBoxLookup_malformed D T.s0,
    sbox1_hasRule.dataLengthRaises fun T D => sBoxLookup_malformed D T.s1⟩

end Sys2Proof.Proofs

namespace Sys2Proof.Proofs

open Sys2Proof.Machine

/-! ## The key schedule -/

@[simp] theorem rotateKeyHalves_length (p : Bits) (k : Nat) : (rotateKeyHalves p k).length = p.length := by
  rw [rotateKeyHalves, List.length_append, rotateLeft_length, rotateLeft_length, ← List.length_append,
    List.take_append_drop]

/-- Each half stays within its own five bits, where rotations add up (R140, R101). -/
theorem rotateKeyHalves_rotateKeyHalves {p : Bits} (hp : 5 ≤ p.length) (a b : Nat) :
    rotateKeyHalves (rotateKeyHalves p a) b = rotateKeyHalves p (a + b) := by
  have hleft : ((p.take 5).rotate a).length = 5 := by simpa using hp
  simp only [rotateKeyHalves, Config.keyHalfBits, rotateLeft_eq_rotate, List.take_left' hleft, List.drop_left' hleft,
    List.rotate_rotate]

/-- What `keySchedule` computes from a 10-bit key: the second rotation, by 2, follows the first, by 1. -/
theorem keySchedule_steps {T : Tables} (hT : T.WF) {k : Bits} (hk : k.length = 10) :
    ∃ p SK1 SK2 : Bits, permute k T.p10 = .ok p
      ∧ permute (rotateKeyHalves p 1) T.p8 = .ok SK1 ∧ permute (rotateKeyHalves p 3) T.p8 = .ok SK2
      ∧ SK1.length = 8 ∧ SK2.length = 8 ∧ keySchedule T k = .ok (SK1, SK2) := by
  obtain ⟨p, hp, hlen⟩ := permute_fits hT.p10 k hk.ge
  obtain ⟨SK1, hsk1, hlen1⟩ := permute_fits hT.p8 (rotateKeyHalves p 1) (by simp [hlen])
  obtain ⟨SK2, hsk2, hlen2⟩ := permute_fits hT.p8 (rotateKeyHalves p 3) (by simp [hlen])
  have htotal : rotateKeyHalves (rotateKeyHalves p 1) 2 = rotateKeyHalves p 3 :=
    rotateKeyHalves_rotateKeyHalves (by omega) 1 2
  exact ⟨p, SK1, SK2, hp, hsk1, hsk2, hlen1, hlen2, by
    simp [keySchedule, Config.keyBits, Config.shift1, Config.shift2, hk, hp, hsk1, htotal, hsk2]⟩

theorem keySchedule_invalidInput (T : Tables) {k : Bits} (hk : k.length ≠ 10) :
    keySchedule T k = .error .invalidInput := by
  simp [keySchedule, Config.keyBits, hk]

/-- Settles O33: the two rotations of the schedule add up to 3. -/
theorem keyScheduleRotatesByOneAndThree : Obligations.KeyScheduleRotatesByOneAndThree :=
  fun T _ hT => ⟨keySchedule_steps hT, keySchedule_invalidInput T⟩

/-! ## KSCHED -/

theorem val_append (u v : Bits) : val (u ++ v) = val u * 2 ^ v.length + val v := by
  induction u with
  | nil => simp [val]
  | cons b u ih => rw [List.cons_append, val, val, ih, List.length_append, pow_add]; ring

/-- RES shows two vectors of eight bits as its two bytes, the first one high (R68). -/
theorem resOf_okWord_append {u v : Bits} (hu : u.length = 8) (hv : v.length = 8) :
    resOf (okWord (u ++ v)) = BitVec.ofNat 8 (val u) ++ BitVec.ofNat 8 (val v) := by
  have hltu : val u < 2 ^ 8 := hu ▸ val_lt u
  have hltv : val v < 2 ^ 8 := hv ▸ val_lt v
  refine BitVec.eq_of_toNat_eq ?_
  rw [resOf_okWord_toNat (by simp [hu, hv]), val_append, hv, BitVec.toNat_append, BitVec.toNat_ofNat,
    BitVec.toNat_ofNat, Nat.mod_eq_of_lt hltu, Nat.mod_eq_of_lt hltv, ← Nat.shiftLeft_add_eq_or_of_lt hltv,
    Nat.shiftLeft_eq]

theorem instrResult_ksched {key : KeySlot} {K : Bits} (hK : slotVector key = .ok K) (T : Tables) :
    instrResult T (.ksched key) = ruleKsched T K := by
  rw [instrResult, hK, ok_bind]

theorem ruleKsched_ok {T : Tables} {K SK1 SK2 : Bits} (hK : K.length = 10)
    (hkeys : keySchedule T K = .ok (SK1, SK2)) : ruleKsched T K = .ok (SK1 ++ SK2) := by
  simp [ruleKsched, Config.keyBits, hK, hkeys]

theorem ruleKsched_invalidInput (T : Tables) {K : Bits} (hK : K.length ≠ 10) :
    ruleKsched T K = .error .invalidInput := by
  simp [ruleKsched, Config.keyBits, hK]

/-- Settles O51: KSCHED packs the two subkeys of R140, and its length check is the schedule's. -/
theorem keyScheduleCompletes : Obligations.KeyScheduleCompletes := by
  intro s key K hK
  have hresult := instrResult_ksched hK s.tables
  constructor
  · intro hlen
    obtain ⟨SK1, SK2, hkeys, hlen1, hlen2⟩ := keySchedule_ok s.built.wf K hlen
    have hres := resOf_okWord_append hlen1 hlen2
    refine ⟨SK1, SK2, hkeys, hlen1, hlen2, ?_, ?_, ?_, exec_of_instrResult (hresult.trans (ruleKsched_ok hlen hkeys))⟩
    · rw [okWord, rlenOf_respWord, List.length_append, hlen1, hlen2]
      rfl
    · rw [hres, BitVec.extractLsb'_append_eq_left]
    · rw [hres, BitVec.extractLsb'_append_eq_right]
  · intro hlen
    rw [exec_of_instrResult (hresult.trans (ruleKsched_invalidInput s.tables hlen)), resultWord,
      errorWord_invalidInput]

end Sys2Proof.Proofs

namespace Sys2Proof.Proofs

open Sys2Proof.Machine

/-! ## The round -/

theorem length_eq_four_of_sBoxLookup_ok {b y : Bits} {S : SBox} (h : sBoxLookup b S = .ok y) : b.length = 4 := by
  by_contra hb
  rw [sBoxLookup_malformed b S hb] at h
  cases h

/-- The steps behind every mask (R150): each one has answered, and the S-boxes have seen four bits each. -/
theorem mask_steps {T : Tables} {R sk m : Bits} (h : mask T R sk = .ok m) :
    ∃ e tl tr u0 u1 : Bits, permute R T.ep = .ok e
      ∧ Machine.xor e sk = .ok (tl ++ tr) ∧ tl.length = 4 ∧ tr.length = 4
      ∧ sBoxLookup tl T.s0 = .ok u0 ∧ sBoxLookup tr T.s1 = .ok u1 ∧ permute (u0 ++ u1) T.p4 = .ok m := by
  obtain ⟨e, hexpand, h⟩ := bind_eq_ok h
  obtain ⟨t, hxor, h⟩ := bind_eq_ok h
  obtain ⟨⟨tl, tr⟩, hhalves, h⟩ := bind_eq_ok h
  obtain ⟨u0, hu0, h⟩ := bind_eq_ok h
  obtain ⟨u1, hu1, h⟩ := bind_eq_ok h
  obtain ⟨happend, -⟩ := splitHalves_append_eq hhalves
  rw [← happend] at hxor
  exact ⟨e, tl, tr, u0, u1, hexpand, hxor, length_eq_four_of_sBoxLookup_ok hu0, length_eq_four_of_sBoxLookup_ok hu1,
    hu0, hu1, h⟩

/-- EP always gives eight bits, so a subkey of any other length cannot be added to them. -/
theorem mask_lengthMismatch {T : Tables} (hT : T.WF) {R sk : Bits} (hR : R.length = 4) (hsk : sk.length ≠ 8) :
    mask T R sk = .error .lengthMismatch := by
  obtain ⟨e, hexpand, hlen⟩ := permute_fits hT.ep R hR.ge
  have hne : e.length ≠ sk.length := hlen ▸ hsk.symm
  rw [mask, hexpand, ok_bind, xor_lengthMismatch hne, error_bind]

theorem splitHalves_eq_take_drop {x : Bits} (h : x.length = 8) : splitHalves x = .ok (x.take 4, x.drop 4) :=
  if_pos h

/-- On right lengths the round adds the mask of the right half onto the left half and keeps the right half (R150). -/
theorem round_ok {T : Tables} (hT : T.WF) {st sk : Bits} (hst : st.length = 8) (hsk : sk.length = 8) :
    ∃ m Lnew : Bits, mask T (st.drop 4) sk = .ok m ∧ Machine.xor m (st.take 4) = .ok Lnew ∧ Lnew.length = 4
      ∧ Machine.round T st sk = .ok (Lnew ++ st.drop 4) := by
  obtain ⟨m, hmask, hmlen⟩ := mask_ok hT (st.drop 4) sk (by simp [hst]) hsk
  obtain ⟨Lnew, hxor, hlen⟩ := xor_ok m (st.take 4) (by simp [hmlen, hst])
  exact ⟨m, Lnew, hmask, hxor, hlen.trans hmlen, by simp [Machine.round, splitHalves_eq_take_drop hst, hmask, hxor]⟩

theorem round_malformedInput (T : Tables) {st : Bits} (hst : st.length ≠ 8) (sk : Bits) :
    Machine.round T st sk = .error .malformedInput := by
  rw [Machine.round, splitHalves_malformed hst, error_bind]

theorem round_lengthMismatch {T : Tables} (hT : T.WF) {st sk : Bits} (hst : st.length = 8) (hsk : sk.length ≠ 8) :
    Machine.round T st sk = .error .lengthMismatch := by
  have hmask : mask T (st.drop 4) sk = .error .lengthMismatch := mask_lengthMismatch hT (by simp [hst]) hsk
  simp [Machine.round, splitHalves_eq_take_drop hst, hmask]

/-- Settles O35: a round on right lengths succeeds, and so its mask came from the steps of R150. -/
theorem roundFollowsItsSteps : Obligations.RoundFollowsItsSteps := by
  intro T st sk hT
  refine ⟨fun hst hsk => ?_, fun hst => round_malformedInput T hst sk, round_lengthMismatch hT⟩
  obtain ⟨m, Lnew, hmask, hxor, hlen, hround⟩ := round_ok hT hst hsk
  obtain ⟨e, tl, tr, u0, u1, hexpand, hadd, htl, htr, hu0, hu1, hp4⟩ := mask_steps hmask
  exact ⟨e, tl, tr, u0, u1, m, Lnew, hexpand, hadd, htl, htr, hu0, hu1, hp4, hxor, hlen, hround⟩

/-! ## ROUND -/

/-- The two checks of ROUND are the errors of `round` itself, in the same order (R151). -/
theorem ruleRound_eq_round {T : Tables} (hT : T.WF) (D A : Bits) : ruleRound T D A = Machine.round T D A := by
  by_cases hD : D.length = 8
  · by_cases hA : A.length = 8
    · exact afterTwoChecks_eq hD hA
    · simp [ruleRound, Config.blockBits, Config.subkeyBits, hD, hA, round_lengthMismatch hT hD hA]
  · simp [ruleRound, Config.blockBits, hD, round_malformedInput T hD]

theorem exec_round {s : State} {data : DataSlot} {aux : AuxSlot} {D A : Bits} (hD : slotVector data = .ok D)
    (hA : slotVector aux = .ok A) :
    exec (.round data aux) s = .next { s with resp := resultWord (Machine.round s.tables D A) } := by
  refine exec_of_instrResult ?_
  rw [instrResult, hD, hA, ok_bind, ok_bind, ruleRound_eq_round s.built.wf]

/-- Settles O52: ROUND answers as `round` does, with the core's tables. -/
theorem roundCompletes : Obligations.RoundCompletes := by
  intro s data aux D A hslotD hslotA
  rw [exec_round hslotD hslotA]
  refine ⟨fun hD hA => ?_, fun hD => ?_, fun hD hA => ?_⟩
  · obtain ⟨m, Lnew, -, -, hlen, hround⟩ := round_ok s.built.wf hD hA
    exact ⟨Lnew ++ D.drop 4, hround, by simp [hlen, hD], List.drop_left' hlen, by rw [hround, resultWord]⟩
  · rw [round_malformedInput s.tables hD, resultWord, errorWord_malformedInput]
  · rw [round_lengthMismatch s.built.wf hD hA, resultWord, errorWord_lengthMismatch]

end Sys2Proof.Proofs

namespace Sys2Proof.Proofs

open Sys2Proof.Machine Sys2Proof.Safety

/-! ## The single cipher -/

/-- The steps behind every answer of the two rounds (R160): each one has answered. -/
theorem twoRounds_steps {T : Tables} {first second x y : Bits} (h : twoRounds T first second x = .ok y) :
    ∃ s0 s1 s2 s3 : Bits, permute x T.ip = .ok s0 ∧ Machine.round T s0 first = .ok s1 ∧ swapHalves s1 = .ok s2
      ∧ Machine.round T s2 second = .ok s3 ∧ permute s3 T.ipinv = .ok y := by
  obtain ⟨s0, hs0, h⟩ := bind_eq_ok h
  obtain ⟨s1, hs1, h⟩ := bind_eq_ok h
  obtain ⟨s2, hs2, h⟩ := bind_eq_ok h
  obtain ⟨s3, hs3, h⟩ := bind_eq_ok h
  exact ⟨s0, s1, s2, s3, hs0, hs1, hs2, hs3, h⟩

/-- Settles O38: on right lengths both functions succeed, and so their values came from the steps of R160 and R161. -/
theorem cipherFollowsItsSteps : Obligations.CipherFollowsItsSteps := by
  intro T k x hT hk hx
  obtain ⟨SK1, SK2, hkeys, -, -⟩ := keySchedule_ok hT k hk
  obtain ⟨c, henc, hclen, -⟩ := decrypt_undoes_encrypt hT hk x hx
  obtain ⟨p, hdec, hplen, -⟩ := encrypt_undoes_decrypt hT hk x hx
  obtain ⟨e0, e1, e2, e3, he0, he1, he2, he3, hc⟩ :=
    twoRounds_steps ((encrypt_eq_twoRounds hk hx hkeys).symm.trans henc)
  obtain ⟨d0, d1, d2, d3, hd0, hd1, hd2, hd3, hp⟩ :=
    twoRounds_steps ((decrypt_eq_twoRounds hk hx hkeys).symm.trans hdec)
  exact ⟨SK1, SK2, hkeys, ⟨e0, e1, e2, e3, c, he0, he1, he2, he3, hc, henc, hclen⟩,
    ⟨d0, d1, d2, d3, p, hd0, hd1, hd2, hd3, hp, hdec, hplen⟩⟩

/-- The first of two checks fails, whatever the second would say. -/
theorem afterTwoChecks_first_fails {c d : Prop} [Decidable c] [Decidable d] {e e' : Err} {x : Result} (hc : ¬ c) :
    (require c e >>= fun _ => require d e' >>= fun _ => x) = .error e := by
  simp [hc]

theorem afterTwoChecks_second_fails {c d : Prop} [Decidable c] [Decidable d] {e e' : Err} {x : Result} (hc : c)
    (hd : ¬ d) : (require c e >>= fun _ => require d e' >>= fun _ => x) = .error e' := by
  simp [hc, hd]

/-- Settles O39: both functions check the key's length and then the block's before they read a table. -/
theorem singleCipherChecksLengths : Obligations.SingleCipherChecksLengths :=
  fun _ _ _ => ⟨fun hk => ⟨afterTwoChecks_first_fails hk, afterTwoChecks_first_fails hk⟩,
    fun hk hx => ⟨afterTwoChecks_second_fails hk hx, afterTwoChecks_second_fails hk hx⟩⟩

/-- Settles O41: `decrypt` runs the inverse steps of `encrypt` from the last to the first. -/
theorem singleCipherRoundTrip : Obligations.SingleCipherRoundTrip := by
  intro T k x hT hk hx
  obtain ⟨c, henc, -, hback⟩ := decrypt_undoes_encrypt hT hk x hx
  obtain ⟨p, hdec, -, hback'⟩ := encrypt_undoes_decrypt hT hk x hx
  exact ⟨⟨c, henc, hback⟩, ⟨p, hdec, hback'⟩⟩

/-- A function followed by what undoes it and by the function again is the function alone. -/
theorem UndoesBlocks.apply_undo_apply {f g : Bits → Result} (h : UndoesBlocks g f) {x : Bits} (hx : x.length = 8) :
    (f x >>= g >>= f) = f x := by
  obtain ⟨y, hy, -, hback⟩ := h x hx
  rw [hy, ok_bind, hback, ok_bind, hy]

/-- Settles O44: with equal keys the middle call undoes the first one. -/
theorem equalKeysGiveSingleCipher : Obligations.EqualKeysGiveSingleCipher := by
  intro T k x hT hk hx
  exact ⟨(encrypt3_eq hk hk hx).trans ((decrypt_undoes_encrypt hT hk).apply_undo_apply hx),
    (decrypt3_eq hk hk hx).trans ((encrypt_undoes_decrypt hT hk).apply_undo_apply hx)⟩

/-! ## The cipher commands on their own

Each of the four reads its two slots, checks the two lengths and calls its function (R164, R165, R173, R174). The lemmas of
this section speak of any such operation. -/

/-- `mk` is the operation on KEY and DATA that calls `f` on a key of `keyLen` bits and a block of 8 bits. -/
def IsCipherOf (mk : KeySlot → DataSlot → Instr) (keyLen : Nat) (f : Tables → Bits → Bits → Result) : Prop :=
  ∀ (T : Tables) (key : KeySlot) (data : DataSlot), instrResult T (mk key data) =
    slotVector key >>= fun K => slotVector data >>= fun D =>
      require (K.length = keyLen) .invalidInput >>= fun _ => require (D.length = 8) .malformedInput >>= fun _ => f T K D

theorem enc_isCipherOf : IsCipherOf .enc 10 encrypt := fun _ _ _ => rfl
theorem dec_isCipherOf : IsCipherOf .dec 10 decrypt := fun _ _ _ => rfl
theorem enc3_isCipherOf : IsCipherOf .enc3 20 fun T K D => encrypt3 T (K.take 10) (K.drop 10) D := fun _ _ _ => rfl
theorem dec3_isCipherOf : IsCipherOf .dec3 20 decrypt3 := fun _ _ _ => rfl

section

variable {mk : KeySlot → DataSlot → Instr} {keyLen : Nat} {f : Tables → Bits → Bits → Result}

/-- With both slots well-formed the command ends with what the checks and `f` make of their vectors. -/
theorem IsCipherOf.exec_eq (hmk : IsCipherOf mk keyLen f) {s : State} {key : KeySlot} {data : DataSlot} {K D : Bits}
    {x : Result} (hK : slotVector key = .ok K) (hD : slotVector data = .ok D)
    (hx : (require (K.length = keyLen) .invalidInput >>= fun _ =>
      require (D.length = 8) .malformedInput >>= fun _ => f s.tables K D) = x) :
    exec (mk key data) s = .next { s with resp := resultWord x } := by
  refine exec_of_instrResult ?_
  rw [hmk, hK, ok_bind, hD, ok_bind, hx]

/-- A function that some other undoes answers a block on every block. -/
theorem IsCipherOf.cipherCompletes (hmk : IsCipherOf mk keyLen f) {g : Tables → Bits → Bits → Result}
    (hf : ∀ (T : Tables) (K : Bits), T.WF → K.length = keyLen → UndoesBlocks (g T K) (f T K)) :
    CipherCompletes mk keyLen f := by
  intro s key data K D hK hD hKlen hDlen
  obtain ⟨c, hc, hclen, -⟩ := hf s.tables K s.built.wf hKlen D hDlen
  exact ⟨c, hc, hclen, hmk.exec_eq hK hD ((afterTwoChecks_eq hKlen hDlen).trans hc)⟩

theorem IsCipherOf.cipherRaises (hmk : IsCipherOf mk keyLen f) : CipherRaises mk keyLen := by
  intro s key data K D hK hD
  constructor
  · intro hKlen
    rw [hmk.exec_eq hK hD (afterTwoChecks_first_fails hKlen), resultWord, errorWord_invalidInput]
  · intro hKlen hDlen
    rw [hmk.exec_eq hK hD (afterTwoChecks_second_fails hKlen hDlen), resultWord, errorWord_malformedInput]

end

/-- Settles O53: under a right key `encrypt` and `decrypt` undo each other, so each answers a block on every block. -/
theorem singleCipherCommandsComplete : Obligations.SingleCipherCommandsComplete :=
  ⟨enc_isCipherOf.cipherCompletes (g := decrypt) fun _ _ hT hK => decrypt_undoes_encrypt hT hK,
    dec_isCipherOf.cipherCompletes (g := encrypt) fun _ _ hT hK => encrypt_undoes_decrypt hT hK⟩

/-- Settles O55: the four operations make the same two checks, with the key length of each. -/
theorem cipherCommandsCheckLengths : Obligations.CipherCommandsCheckLengths :=
  ⟨enc_isCipherOf.cipherRaises, dec_isCipherOf.cipherRaises, enc3_isCipherOf.cipherRaises, dec3_isCipherOf.cipherRaises⟩

end Sys2Proof.Proofs

namespace Sys2Proof.Proofs

open Sys2Proof.Machine Sys2Proof.Safety

/-! ## The triple cipher -/

/-- Three calls that each answer a block on every block, the first and the last the same, with the blocks between them. -/
theorem UndoesBlocks.three_calls_ok {f g f' g' : Bits → Result} (h : UndoesBlocks g f) (h' : UndoesBlocks g' f')
    {x : Bits} (hx : x.length = 8) :
    ∃ a b c : Bits, f x = .ok a ∧ f' a = .ok b ∧ f b = .ok c ∧ (f x >>= f' >>= f) = .ok c ∧ c.length = 8 := by
  obtain ⟨a, ha, hlen, -⟩ := h x hx
  obtain ⟨b, hb, hlen, -⟩ := h' a hlen
  obtain ⟨c, hc, hlen, -⟩ := h b hlen
  exact ⟨a, b, c, ha, hb, hc, by rw [ha, ok_bind, hb, ok_bind, hc], hlen⟩

/-- Settles O42: each inner call is undone by a call of the other cipher under its key, so each answers a block. -/
theorem tripleCipherComposes : Obligations.TripleCipherComposes := by
  intro T MK1 MK2 x hT h1 h2 hx
  obtain ⟨a, b, c, ha, hb, hc, hcalls, hclen⟩ :=
    (decrypt_undoes_encrypt hT h1).three_calls_ok (encrypt_undoes_decrypt hT h2) hx
  obtain ⟨a', b', p, ha', hb', hp, hcalls', hplen⟩ :=
    (encrypt_undoes_decrypt hT h1).three_calls_ok (decrypt_undoes_encrypt hT h2) hx
  exact ⟨⟨a, b, c, ha, hb, hc, (encrypt3_eq h1 h2 hx).trans hcalls, hclen⟩,
    ⟨a', b', p, ha', hb', hp, (decrypt3_eq h1 h2 hx).trans hcalls', hplen⟩⟩

/-- Settles O43: the three calls of one function are undone, from the last to the first, by those of the other. -/
theorem tripleCipherRoundTrip : Obligations.TripleCipherRoundTrip := by
  intro T MK1 MK2 x hT h1 h2 hx
  obtain ⟨c, henc, -, hback⟩ := decrypt3_undoes_encrypt3 hT h1 h2 x hx
  obtain ⟨p, hdec, -, hback'⟩ := encrypt3_undoes_decrypt3 hT h1 h2 x hx
  exact ⟨⟨c, henc, hback⟩, ⟨p, hdec, hback'⟩⟩

/-- The two halves of a combined key join to it, so the functions under it undo each other (R173, R174). -/
theorem decrypt3_encrypt3_split_undo_each_other {T : Tables} (hT : T.WF) {K : Bits} (hK : K.length = 20) :
    UndoesBlocks (decrypt3 T K) (encrypt3 T (K.take 10) (K.drop 10))
      ∧ UndoesBlocks (encrypt3 T (K.take 10) (K.drop 10)) (decrypt3 T K) := by
  have h1 : (K.take 10).length = 10 := by simp [hK]
  have h2 : (K.drop 10).length = 10 := by simp [hK]
  have hdec := decrypt3_undoes_encrypt3 hT h1 h2
  have henc := encrypt3_undoes_decrypt3 hT h1 h2
  rw [List.take_append_drop] at hdec henc
  exact ⟨hdec, henc⟩

/-- Settles O54: under a right key the two functions undo each other, so each answers a block on every block. -/
theorem tripleCipherCommandsComplete : Obligations.TripleCipherCommandsComplete :=
  ⟨enc3_isCipherOf.cipherCompletes (g := decrypt3) fun _ _ hT hK => (decrypt3_encrypt3_split_undo_each_other hT hK).1,
    dec3_isCipherOf.cipherCompletes (g := fun T K D => encrypt3 T (K.take 10) (K.drop 10) D)
      fun _ _ hT hK => (decrypt3_encrypt3_split_undo_each_other hT hK).2⟩

/-- `encrypt3` tests its two keys together (R172). -/
theorem encrypt3_eq_checks (T : Tables) (MK1 MK2 x : Bits) : encrypt3 T MK1 MK2 x =
    require (MK1.length = 10 ∧ MK2.length = 10) .invalidInput >>= fun _ =>
      require (x.length = 8) .malformedInput >>= fun _ =>
        encrypt T MK1 x >>= fun a => decrypt T MK2 a >>= encrypt T MK1 := by
  rw [Bool.decide_and]
  rfl

/-- Settles O40: both functions check the lengths of the keys and then the block's before they call a cipher. -/
theorem tripleCipherChecksLengths : Obligations.TripleCipherChecksLengths := by
  intro T MK1 MK2 CK x
  rw [encrypt3_eq_checks]
  exact ⟨fun hkeys => afterTwoChecks_first_fails (not_and_or.mpr hkeys),
    fun h1 h2 hx => afterTwoChecks_second_fails ⟨h1, h2⟩ hx,
    fun hkey => afterTwoChecks_first_fails hkey,
    fun hkey hx => afterTwoChecks_second_fails hkey hx⟩

end Sys2Proof.Proofs

namespace Sys2Proof.Proofs

open Sys2Proof.Machine Sys2Proof.Safety

/-! ## Raising an error -/

theorem raise_eq (e : Err) (s : State) : raise e s = { s with resp := errorWord e } :=
  rfl

/-- Settles O23: an error is raised by writing its word to RESP. -/
theorem raiseWritesErrorWord : Obligations.RaiseWritesErrorWord := by
  intro s
  simp only [raise_eq, errorWord_invalidOp, errorWord_invalidInput, errorWord_malformedInput,
    errorWord_lengthMismatch, errorWord_invalidTable, and_self]

/-! ## The error of each rule

A rule that answers under a condition and fails with one error otherwise fails with no other error. -/

theorem error_unique {c : Prop} {x : Result} {e e' : Err} (hok : c → ∃ r, x = .ok r) (herr : ¬ c → x = .error e')
    (h : x = .error e) : e = e' := by
  by_cases hc : c
  · obtain ⟨r, hr⟩ := hok hc
    rw [hr] at h
    cases h
  · rw [herr hc] at h
    cases h
    rfl

theorem permute_error {x : Bits} {t : IndexTable} {e : Err} (h : permute x t = .error e) : e = .invalidTable := by
  obtain ⟨y, hy, -⟩ | ⟨herr, -⟩ := permute_cases x t
  · rw [hy] at h
    cases h
  · rw [herr] at h
    cases h
    rfl

theorem xor_error {a b : Bits} {e : Err} (h : Machine.xor a b = .error e) : e = .lengthMismatch :=
  error_unique (fun hab => ⟨_, xor_eq_zipWith hab⟩) xor_lengthMismatch h

theorem ruleSplit_error {D : Bits} {e : Err} (h : ruleSplit D = .error e) : e = .malformedInput :=
  error_unique (fun hD => ⟨D, ruleSplit_ok hD⟩) ruleSplit_malformed h

theorem swapHalves_error {D : Bits} {e : Err} (h : swapHalves D = .error e) : e = .malformedInput :=
  error_unique (fun hD => ⟨_, swapHalves_eq_drop_append_take hD⟩) swapHalves_malformed h

theorem sBoxLookup_error {b : Bits} {S : SBox} {e : Err} (h : sBoxLookup b S = .error e) : e = .malformedInput :=
  error_unique (fun hb => (sBoxLookup_ok b S hb).imp fun _ => And.left) (sBoxLookup_malformed b S) h

/-- With well-formed tables KSCHED fails for the key's length only. -/
theorem ruleKsched_error {T : Tables} (hT : T.WF) {K : Bits} {e : Err} (h : ruleKsched T K = .error e) :
    e = .invalidInput := by
  refine error_unique (fun hK => ?_) (ruleKsched_invalidInput T) h
  obtain ⟨SK1, SK2, hkeys, -, -⟩ := keySchedule_ok hT K hK
  exact ⟨_, ruleKsched_ok hK hkeys⟩

/-- With well-formed tables a round fails for the state's length or for the subkey's. -/
theorem round_error {T : Tables} (hT : T.WF) {st sk : Bits} {e : Err} (h : Machine.round T st sk = .error e) :
    e = .malformedInput ∨ e = .lengthMismatch := by
  by_cases hst : st.length = 8
  · refine .inr (error_unique (fun hsk => ?_) (round_lengthMismatch hT hst) h)
    obtain ⟨m, Lnew, -, -, -, hround⟩ := round_ok hT hst hsk
    exact ⟨_, hround⟩
  · rw [round_malformedInput T hst] at h
    cases h
    exact .inl rfl

/-! ## The error of each operation -/

/-- An operation on one well-formed slot fails with its rule's error. -/
theorem oneSlot_error {t w : Nat} {s : Slot t w} {f : Bits → Result} {e : Err} (hwf : s.wf = true)
    (h : (slotVector s >>= f) = .error e) : f (slotBits s) = .error e := by
  rwa [slotVector_of_wf hwf] at h

/-- An operation on two well-formed slots fails with its rule's error. -/
theorem twoSlots_error {t w t' w' : Nat} {s : Slot t w} {s' : Slot t' w'} {f : Bits → Bits → Result} {e : Err}
    (hwf : (s.wf && s'.wf) = true) (h : (slotVector s >>= fun D => slotVector s' >>= f D) = .error e) :
    f (slotBits s) (slotBits s') = .error e := by
  obtain ⟨hs, hs'⟩ := Bool.and_eq_true_iff.mp hwf
  exact oneSlot_error hs' (oneSlot_error hs h)

/-- A cipher operation fails in its two checks only: once they pass, its function answers. -/
theorem IsCipherOf.error_cases {mk : KeySlot → DataSlot → Instr} {keyLen : Nat} {f : Tables → Bits → Bits → Result}
    (hmk : IsCipherOf mk keyLen f) (hf : CipherCompletes mk keyLen f) {s : State} {key : KeySlot} {data : DataSlot}
    (hwf : (key.wf && data.wf) = true) {e : Err} (h : instrResult s.tables (mk key data) = .error e) :
    e = .invalidInput ∨ e = .malformedInput := by
  rw [hmk] at h
  replace h := twoSlots_error hwf h
  obtain h | ⟨_, hK, h⟩ := bind_eq_error h
  · exact .inl (require_eq_error h).1
  obtain h | ⟨_, hD, h⟩ := bind_eq_error h
  · exact .inr (require_eq_error h).1
  obtain ⟨hkey, hdata⟩ := Bool.and_eq_true_iff.mp hwf
  obtain ⟨c, hc, -, -⟩ := hf s key data _ _ (slotVector_of_wf hkey) (slotVector_of_wf hdata)
    (of_decide_eq_true (require_eq_ok hK)) (of_decide_eq_true (require_eq_ok hD))
  rw [hc] at h
  cases h

/-- The instructions the spec gives each error to (`60_exceptions.md` R181 to R186 and the table after R186). -/
def ErrorBelongs (i : Instr) : Err → Prop
  | .invalidOp => False
  | .invalidInput => i.WellFormed = false ∨ opOf i ∈ [0x10, 0x12, 0x13, 0x14, 0x15]
  | .malformedInput => opOf i ∈ [0x09, 0x0A, 0x0B, 0x0C, 0x11, 0x12, 0x13, 0x14, 0x15]
  | .lengthMismatch => opOf i ∈ [0x08, 0x11]
  | .invalidTable => opOf i ∈ [0x01, 0x02, 0x03, 0x04, 0x05, 0x06]

/-- An instruction with well-formed slots fails with an error of its rule. -/
theorem errorBelongs_of_wellFormed {s : State} {i : Instr} {e : Err} (hwf : i.WellFormed = true)
    (h : instrResult s.tables i = .error e) : ErrorBelongs i e := by
  have hT := s.built.wf
  cases i with
  | permP10 | permP8 | permIp | permIpinv | permEp | permP4 =>
    obtain rfl := permute_error (oneSlot_error hwf h)
    simp [ErrorBelongs, opOf, encodeFields]
  | rotl =>
    cases oneSlot_error hwf h
  | xor =>
    obtain rfl := xor_error (twoSlots_error hwf h)
    simp [ErrorBelongs, opOf, encodeFields]
  | split =>
    obtain rfl := ruleSplit_error (oneSlot_error hwf h)
    simp [ErrorBelongs, opOf, encodeFields]
  | swap =>
    obtain rfl := swapHalves_error (oneSlot_error hwf h)
    simp [ErrorBelongs, opOf, encodeFields]
  | sbox0 | sbox1 =>
    obtain rfl := sBoxLookup_error (oneSlot_error hwf h)
    simp [ErrorBelongs, opOf, encodeFields]
  | ksched =>
    obtain rfl := ruleKsched_error hT (oneSlot_error hwf h)
    simp [ErrorBelongs, opOf, encodeFields]
  | round =>
    have hround := twoSlots_error hwf h
    rw [ruleRound_eq_round hT] at hround
    obtain rfl | rfl := round_error hT hround <;> simp [ErrorBelongs, opOf, encodeFields]
  | enc =>
    obtain rfl | rfl := enc_isCipherOf.error_cases singleCipherCommandsComplete.1 hwf h <;>
      simp [ErrorBelongs, opOf, encodeFields]
  | dec =>
    obtain rfl | rfl := dec_isCipherOf.error_cases singleCipherCommandsComplete.2 hwf h <;>
      simp [ErrorBelongs, opOf, encodeFields]
  | enc3 =>
    obtain rfl | rfl := enc3_isCipherOf.error_cases tripleCipherCommandsComplete.1 hwf h <;>
      simp [ErrorBelongs, opOf, encodeFields]
  | dec3 =>
    obtain rfl | rfl := dec3_isCipherOf.error_cases tripleCipherCommandsComplete.2 hwf h <;>
      simp [ErrorBelongs, opOf, encodeFields]

theorem instrResult_error_belongs {s : State} {i : Instr} {e : Err} (h : instrResult s.tables i = .error e) :
    ErrorBelongs i e := by
  cases hwf : i.WellFormed with
  | true => exact errorBelongs_of_wellFormed hwf h
  | false =>
    rw [instrResult_of_not_wellFormed s.tables hwf] at h
    cases h
    exact .inl hwf

/-! ## The status of each operation -/

theorem statOf_okWord (r : Bits) : statOf (okWord r) = 0 :=
  statOf_respWord ..

theorem statOf_errorWord (e : Err) : statOf (errorWord e) = errCode e :=
  statOf_respWord ..

/-- Settles O24: a command that completes has status 0, and one that fails has the code of an error that belongs to it. -/
theorem statusesBelongToOperations : Obligations.StatusesBelongToOperations := by
  intro i s t h
  rw [exec_eq_writeResp] at h
  cases h
  rw [writeResp_resp]
  cases hresult : instrResult s.tables i with
  | ok r => simp [resultWord, statOf_okWord]
  | error e =>
    have hbelongs := instrResult_error_belongs hresult
    rw [resultWord, statOf_errorWord]
    cases e with
    | invalidOp => exact hbelongs.elim
    | invalidInput | malformedInput | lengthMismatch | invalidTable =>
      simpa [errCode, ErrorBelongs] using hbelongs

end Sys2Proof.Proofs
